-- ==== Sys2Proof/Word.lean ====
section
/-! DEFINITION. The word types of the TWI master controller and the names of its five registers
(spec/00_scope.md R5, R6; spec/10_state.md R10). -/

namespace Sys2Proof

/-- A register word, 32 bits, bit 0 the least significant (R5, R6). -/
abbrev Word := BitVec 32

/-- A bus byte or a status code, 8 bits (R5). -/
abbrev Byte := BitVec 8

/-- The five host-visible registers of R10; there is no other. -/
inductive Reg where
  | ctrl
  | addr
  | dout
  | din
  | status
  deriving DecidableEq, Repr

end Sys2Proof
end

