-- ==== Sys2Proof/Config.lean ====
section
/-! DEFINITION. What the implementation fixes (the parameters of spec/00_scope.md R5), what the
environment may answer (spec/42_bus_engine.md R111), and the free values, which are opaque. -/

namespace Sys2Proof

/-- `READ_LEN_LSB` of R5 takes the value 0 or 2 and no other (R13). -/
inductive ReadLen where
  | lsb0
  | lsb2
  deriving DecidableEq, Repr

/-- The parameters of R5 a model may vary. They are fixed for a run; State holds them so that every
statement covers every value (assumption 8). -/
structure Params where
  /-- `READ_LEN_LSB` (R5, R13). -/
  readLen : ReadLen
  /-- `START_CLEARS_FLAGS` (R5, R114). -/
  startClearsFlags : Bool
  /-- `ERROR_SETS_DONE` (R5, R116). -/
  errorSetsDone : Bool
  /-- `CODE_OK` (R5, R116). -/
  codeOk : Byte
  /-- `POLL_BOUND` (R5, R144). -/
  pollBound : Nat
  /-- `RESET_CODE` (R5, R31), which the spec leaves open (assumption 5). -/
  resetCode : Byte
  deriving DecidableEq, Repr

/-- How the bus answers `BusWrite` (R111): `WAck` or `WErr(code)`. -/
inductive WriteAnswer where
  | ack
  | err (code : Byte)
  deriving DecidableEq, Repr, Inhabited

/-- How the bus answers `BusRead` (R111): `RData(bytes)` or `RErr(code)`. The answer to a read of
`n` bytes is the first `n` of the four, in bus order (assumption 23). -/
inductive ReadAnswer where
  | data (b0 b1 b2 b3 : Byte)
  | err (code : Byte)
  deriving DecidableEq, Repr, Inhabited

/-- What engine and environment do before one host access (R54, R117): nothing, or the completion
step, the bus answering the question the latched command asks. -/
inductive EnvMove where
  | hold
  | move (w : WriteAnswer) (r : ReadAnswer)
  deriving DecidableEq, Repr

namespace Config

/-- The defaults of R5; `RESET_CODE` has none, and 0 is the model's choice (assumption 5). -/
def defaults : Params :=
  { readLen := .lsb0, startClearsFlags := true, errorSetsDone := true,
    codeOk := 0xFF#8, pollBound := 10000, resetCode := 0x00#8 }

/-- `REG_WIDTH` of R5: the one access width, in bits (R43). -/
def regWidth : Nat := 32

/-- `STATUS_CLEAR_LITERAL` of R5. -/
def statusClearLiteral : Word := 0x00000003#32

/-- `LEN_MIN` and `LEN_MAX` of R5. -/
def lenMin : Int := 1
def lenMax : Int := 4

/-- The page of `TWI_BASE`: open (R5, assumption 9). -/
opaque twiPage : Nat

/-- The place of the block in its page, in words: open, but such that the five registers lie in
one page (R5: `(TWI_BASE & 0xFFF) + 0x18 <= 0x1000`). -/
opaque twiSlot : Fin 1019

/-- `TWI_BASE` of R5: open, a multiple of 4, the five registers inside one 4096-byte page. -/
def twiBase : Nat := 4096 * twiPage + 4 * twiSlot.val

/-- `SLAVE_DEFAULT` of R5: open; the block never reads it (assumption 10). -/
opaque slaveDefault : Word

/-- `UNKNOWN_CODE_RADIX` of R5: how a code is rendered in "unknown error" is open (assumption 10). -/
opaque unknownCodeText : Byte → String

/-- Free value (assumption 2): whether the completion step falls before the host access of this
tick (R117: any later point or never). -/
opaque engineMoves : Nat → Bool

/-- Free value (assumption 2): the oracle's answer to `BusWrite(slave, bytes)` at this tick (R112). -/
opaque busWrite : Nat → Word → List Byte → WriteAnswer

/-- Free value (assumption 2): the oracle's answer to `BusRead(slave, n)` at this tick (R112). -/
opaque busRead : Nat → Word → Nat → ReadAnswer

/-- Free value (assumption 3): the bits of DIN a completion at this tick leaves unspecified (R116). -/
opaque dinFill : Nat → Word

/-- Free value (assumption 3): the draw a host read of DIN at this tick makes for the bits the spec
leaves unspecified (R87). -/
opaque dinDraw : Nat → Word

end Config

end Sys2Proof
end

