-- ==== Sys2Proof/Syntax.lean ====
section
/-! DEFINITION. The 19 operations of spec/opcode_table.json, one constructor each
(spec/30_encoding.md R69, R72). -/

namespace Sys2Proof

/-- An operation with its operands in the order of R72. A bit index and a length are integers, as
in the document's procedures: values out of range are refused by the meaning (R100, R147). -/
inductive Instr where
  /-- CTRL.LD (R80). -/
  | ctrlLd
  /-- CTRL.ST v (R81). -/
  | ctrlSt (v : Word)
  /-- XFER.W, the whole command word (R82, R121). -/
  | xferW (v : Word)
  /-- XFER.R, the whole command word (R82, R122). -/
  | xferR (v : Word)
  /-- ADDR.LD (R83). -/
  | addrLd
  /-- ADDR.ST v (R84). -/
  | addrSt (v : Word)
  /-- DOUT.LD (R85). -/
  | doutLd
  /-- DOUT.ST v (R86). -/
  | doutSt (v : Word)
  /-- DIN.LD (R87). -/
  | dinLd
  /-- STATUS.LD (R91). -/
  | statusLd
  /-- STCLR (R88). -/
  | stclr
  /-- SETB X, n (R102). -/
  | setb (x : Reg) (n : Int)
  /-- CLRB X, n (R103). -/
  | clrb (x : Reg) (n : Int)
  /-- GETB X, n (R104). -/
  | getb (x : Reg) (n : Int)
  /-- TWI.ENABLE (R141). -/
  | twiEnable
  /-- TWI.WRITE slave, len, data (R142). -/
  | twiWrite (slave : Word) (len : Int) (data : Word)
  /-- TWI.READ slave, len (R143). -/
  | twiRead (slave : Word) (len : Int)
  /-- TWI.POLL (R144, R145). -/
  | twiPoll
  /-- TWI.DECODE code (R146). -/
  | twiDecode (code : Byte)
  deriving DecidableEq, Repr

end Sys2Proof
end

