-- ==== Sys2Proof/WellFormed.lean ====
section
/-! DEFINITION. Which terms of Instr are instructions of the spec: the value of a CTRL write matches
its row's pattern (spec/30_encoding.md R62 to R64, R69) and integers lie in their ranges
(spec/41_bitfield_accessors.md R100, spec/43_sequencer.md R147). -/

namespace Sys2Proof

/-- A CTRL.ST word has START = 0 (R69, R81). -/
def isStoreWord (v : Word) : Bool := v &&& 0x00000040#32 == 0#32

/-- The mask and match of the command word XFER.W (R62, R63). -/
def isWriteCommand (v : Word) : Bool := v &&& 0x81000070#32 == 0x80000050#32

/-- The mask and match of the command word XFER.R (R62, R64). -/
def isReadCommand (v : Word) : Bool := v &&& 0x81000070#32 == 0x80000040#32

/-- A bit index is in 0..31 (R100). -/
def bitIndexOk (n : Int) : Bool := decide (0 ≤ n ∧ n ≤ 31)

/-- A length is in `LEN_MIN`..`LEN_MAX` (R147). -/
def lengthOk (len : Int) : Bool := decide (Config.lenMin ≤ len ∧ len ≤ Config.lenMax)

/-- The terms that stand for an instruction of the opcode table. -/
def Instr.wellFormed : Instr → Bool
  | .ctrlLd => true
  | .ctrlSt v => isStoreWord v
  | .xferW v => isWriteCommand v
  | .xferR v => isReadCommand v
  | .addrLd => true
  | .addrSt _ => true
  | .doutLd => true
  | .doutSt _ => true
  | .dinLd => true
  | .statusLd => true
  | .stclr => true
  | .setb _ n => bitIndexOk n
  | .clrb _ n => bitIndexOk n
  | .getb _ n => bitIndexOk n
  | .twiEnable => true
  | .twiWrite _ len _ => lengthOk len
  | .twiRead _ len => lengthOk len
  | .twiPoll => true
  | .twiDecode _ => true

end Sys2Proof
end

