-- ==== Sys2Proof/Decode.lean ====
section
/-! DEFINITION. From what the host issues to an operation, and back: register accesses identified by
kind, offset and value (spec/30_encoding.md R69, R70), and the CMD16 bookkeeping words (R75). -/

namespace Sys2Proof

/-- What the host issues in encoded form. An access names its offset from `TWI_BASE`
(assumption 9) and its width in bits; a CMD16 command is one 16-bit word followed by its 32-bit
operand words (R75). -/
inductive Command where
  | read (width : Nat) (off : Int)
  | write (width : Nat) (off : Int) (v : Word)
  | cmd16 (op : BitVec 16) (operands : List Word)
  deriving DecidableEq, Repr

/-- Why an access reaches no register (R43 to R45). -/
inductive AccessReject where
  | width
  | misaligned
  | unmappedOffset
  deriving DecidableEq, Repr

/-- Why an encoded command is no operation of the table (R70, R75). -/
inductive Reject where
  | access (r : AccessReject)
  | dinWrite
  | statusValue
  | commandWord
  | cmd16
  deriving DecidableEq, Repr

/-- The offsets of R10. -/
def regOffset : Reg → Int
  | .ctrl => 0x00
  | .addr => 0x08
  | .dout => 0x0C
  | .din => 0x10
  | .status => 0x14

/-- The register at an offset, none in the holes of R42 and R45. -/
def regAt (off : Int) : Option Reg :=
  if off = 0x00 then some .ctrl
  else if off = 0x08 then some .addr
  else if off = 0x0C then some .dout
  else if off = 0x10 then some .din
  else if off = 0x14 then some .status
  else none

/-- Checks (1) to (3) of R79, in that order. `TWI_BASE` is a multiple of 4, so an address is
aligned exactly if its offset is (R44). -/
def windowReg (width : Nat) (off : Int) : Except AccessReject Reg :=
  if width ≠ Config.regWidth then .error .width
  else if off % 4 ≠ 0 then .error .misaligned
  else
    match regAt off with
    | none => .error .unmappedOffset
    | some x => .ok x

/-- The read operation of each register (R69). -/
def decodeRead : Reg → Instr
  | .ctrl => .ctrlLd
  | .addr => .addrLd
  | .dout => .doutLd
  | .din => .dinLd
  | .status => .statusLd

/-- A CTRL write by its masks and matches (R62 to R64, R69). -/
def decodeCtrlWrite (v : Word) : Except Reject Instr :=
  if v &&& 0x00000040#32 = 0x00000000#32 then .ok (.ctrlSt v)
  else if v &&& 0x81000070#32 = 0x80000050#32 then .ok (.xferW v)
  else if v &&& 0x81000070#32 = 0x80000040#32 then .ok (.xferR v)
  else .error .commandWord

/-- The write operation of a register and a value (R69). -/
def decodeWrite (x : Reg) (v : Word) : Except Reject Instr :=
  match x with
  | .ctrl => decodeCtrlWrite v
  | .addr => .ok (.addrSt v)
  | .dout => .ok (.doutSt v)
  | .din => .error .dinWrite
  | .status => if v = Config.statusClearLiteral then .ok .stclr else .error .statusValue

/-- An accessor's CMD16 word: `rrr` in bits 11:9 is the register's offset divided by 4, `nnnnn` in
bits 4:0 the bit index, no operand word (R75). -/
def decodeAccessor (mk : Reg → Int → Instr) (op : BitVec 16) (operands : List Word) :
    Except Reject Instr :=
  match regAt (4 * ((op.extractLsb' 9 3).toNat : Int)), operands with
  | some x, [] => .ok (mk x ((op.extractLsb' 0 5).toNat : Int))
  | _, _ => .error .cmd16

/-- A command that has no operand word (R75). -/
def withoutOperands (i : Instr) (operands : List Word) : Except Reject Instr :=
  match operands with
  | [] => .ok i
  | _ => .error .cmd16

/-- The length of a sequenced transfer, `len - 1` in bits 1:0 of its word (R75). -/
def cmd16Length (op : BitVec 16) : Int := (op.extractLsb' 0 2).toNat + 1

/-- The CMD16 table of R75; any other value is refused. -/
def decodeCmd16 (op : BitVec 16) (operands : List Word) : Except Reject Instr :=
  if op &&& 0xF1E0#16 = 0x1000#16 then decodeAccessor .setb op operands
  else if op &&& 0xF1E0#16 = 0x2000#16 then decodeAccessor .clrb op operands
  else if op &&& 0xF1E0#16 = 0x3000#16 then decodeAccessor .getb op operands
  else if op = 0x8000#16 then withoutOperands .twiEnable operands
  else if op &&& 0xFFFC#16 = 0x9000#16 then
    match operands with
    | [slave, data] => .ok (.twiWrite slave (cmd16Length op) data)
    | _ => .error .cmd16
  else if op &&& 0xFFFC#16 = 0xA000#16 then
    match operands with
    | [slave] => .ok (.twiRead slave (cmd16Length op))
    | _ => .error .cmd16
  else if op = 0xB000#16 then withoutOperands .twiPoll operands
  else if op &&& 0xFF00#16 = 0xC000#16 then
    withoutOperands (.twiDecode (op.extractLsb' 0 8)) operands
  else .error .cmd16

/-- The operation an encoded command stands for; every other command is rejected by name. -/
def decode : Command → Except Reject Instr
  | .read width off =>
    match windowReg width off with
    | .error r => .error (.access r)
    | .ok x => .ok (decodeRead x)
  | .write width off v =>
    match windowReg width off with
    | .error r => .error (.access r)
    | .ok x => decodeWrite x v
  | .cmd16 op operands => decodeCmd16 op operands

/-- An accessor's CMD16 word (R75). -/
def accessorWord (base : BitVec 16) (x : Reg) (n : Int) : BitVec 16 :=
  base ||| (BitVec.ofInt 16 (regOffset x / 4) <<< 9) ||| BitVec.ofInt 16 n

/-- A 32-bit host read of a register, and a 32-bit host write (R7: `RD32`, `WR32`). -/
def rd32 (x : Reg) : Command := .read Config.regWidth (regOffset x)
def wr32 (x : Reg) (v : Word) : Command := .write Config.regWidth (regOffset x) v

/-- The encoded form of a well-formed instruction (R69, R75). -/
def encode : Instr → Command
  | .ctrlLd => rd32 .ctrl
  | .ctrlSt v => wr32 .ctrl v
  | .xferW v => wr32 .ctrl v
  | .xferR v => wr32 .ctrl v
  | .addrLd => rd32 .addr
  | .addrSt v => wr32 .addr v
  | .doutLd => rd32 .dout
  | .doutSt v => wr32 .dout v
  | .dinLd => rd32 .din
  | .statusLd => rd32 .status
  | .stclr => wr32 .status 0x00000003#32
  | .setb x n => .cmd16 (accessorWord 0x1000#16 x n) []
  | .clrb x n => .cmd16 (accessorWord 0x2000#16 x n) []
  | .getb x n => .cmd16 (accessorWord 0x3000#16 x n) []
  | .twiEnable => .cmd16 0x8000#16 []
  | .twiWrite slave len data => .cmd16 (0x9000#16 ||| BitVec.ofInt 16 (len - 1)) [slave, data]
  | .twiRead slave len => .cmd16 (0xA000#16 ||| BitVec.ofInt 16 (len - 1)) [slave]
  | .twiPoll => .cmd16 0xB000#16 []
  | .twiDecode code => .cmd16 (0xC000#16 ||| code.setWidth 16) []

/-- A row of spec/opcode_table.json: an access with the mask and match of the value written, or a
CMD16 word with its mask, match and number of operand words. -/
inductive TableRow where
  | read (off : Int)
  | write (off : Int) (mask value : Word)
  | cmd16 (mask value : BitVec 16) (operands : Nat)
  deriving DecidableEq, Repr

/-- The row of each operation, as the table has it. -/
def Instr.row : Instr → TableRow
  | .ctrlLd => .read 0x00
  | .ctrlSt _ => .write 0x00 0x00000040#32 0x00000000#32
  | .xferW _ => .write 0x00 0x81000070#32 0x80000050#32
  | .xferR _ => .write 0x00 0x81000070#32 0x80000040#32
  | .addrLd => .read 0x08
  | .addrSt _ => .write 0x08 0x00000000#32 0x00000000#32
  | .doutLd => .read 0x0C
  | .doutSt _ => .write 0x0C 0x00000000#32 0x00000000#32
  | .dinLd => .read 0x10
  | .statusLd => .read 0x14
  | .stclr => .write 0x14 0xFFFFFFFF#32 0x00000003#32
  | .setb _ _ => .cmd16 0xF1E0#16 0x1000#16 0
  | .clrb _ _ => .cmd16 0xF1E0#16 0x2000#16 0
  | .getb _ _ => .cmd16 0xF1E0#16 0x3000#16 0
  | .twiEnable => .cmd16 0xFFFF#16 0x8000#16 0
  | .twiWrite _ _ _ => .cmd16 0xFFFC#16 0x9000#16 2
  | .twiRead _ _ => .cmd16 0xFFFC#16 0xA000#16 1
  | .twiPoll => .cmd16 0xFFFF#16 0xB000#16 0
  | .twiDecode _ => .cmd16 0xFF00#16 0xC000#16 0

/-- Whether an encoded command falls under a row. -/
def TableRow.admits (r : TableRow) (c : Command) : Bool :=
  match r, c with
  | .read off, .read width off' => width == Config.regWidth && off' == off
  | .write off mask value, .write width off' v =>
    width == Config.regWidth && off' == off && v &&& mask == value
  | .cmd16 mask value k, .cmd16 op operands => op &&& mask == value && operands.length == k
  | _, _ => false

/-- How many operand words follow a CMD16 word (R75). -/
def cmd16Operands (op : BitVec 16) : Nat :=
  if op &&& 0xFFFC#16 = 0x9000#16 then 2 else if op &&& 0xFFFC#16 = 0xA000#16 then 1 else 0

/-- An instruction given as a number, bit 0 the least significant bit of its first word. A 32-bit
number is a value the host writes: the literal 3 to STATUS, any other to CTRL; a number of any
other length is a CMD16 word and its operand words (assumption 15). -/
def commandOfTableWord (nbits w : Nat) : Command :=
  if nbits = 32 then
    if BitVec.ofNat 32 w = 0x00000003#32 then wr32 .status (BitVec.ofNat 32 w)
    else wr32 .ctrl (BitVec.ofNat 32 w)
  else
    .cmd16 (BitVec.ofNat 16 w)
      ((List.range (cmd16Operands (BitVec.ofNat 16 w))).map
        fun k => BitVec.ofNat 32 (w / 2 ^ (16 + 32 * k)))

/-- The instruction the decoder reads from such a number. -/
def decodeTableWord (nbits w : Nat) : Option Instr :=
  match decode (commandOfTableWord nbits w) with
  | .ok i => some i
  | .error _ => none

end Sys2Proof
end

