-- ==== Sys2Proof/Machine/State.lean ====
section
/-! DEFINITION. The state of the controller as spec/10_state.md lists it (register block R10 to R24,
sequencer R25 to R30), the model's own fields for the outside world, and State.reset (R31). -/

namespace Sys2Proof.Machine

/-- Direction of a transaction (R23). -/
inductive Kind where
  | write
  | read
  deriving DecidableEq, Repr

/-- `latched`, the command the engine works on (R23). -/
structure Latched where
  kind : Kind
  n : Nat
  slave : Word
  data : Word
  deriving DecidableEq, Repr

/-- `phase` (R22) together with `latched`, which has a meaning only while PENDING (R23). -/
inductive Engine where
  | idle
  | pending (c : Latched)
  deriving DecidableEq, Repr

/-- The stored fields of STATUS; its other bits read as 0 (R17). -/
structure Status where
  code : Byte
  done : Bool
  err : Bool
  deriving DecidableEq, Repr

/-- `seq`, the sequencer's state (R25). -/
inductive Seq where
  | uninitialized
  | enabled
  | writePending
  | readPending
  | done
  | error
  | timeout
  deriving DecidableEq, Repr

/-- `err_class` (R29); UNKNOWN carries the number (R146). -/
inductive ErrClass where
  | addrWNack
  | dataNack
  | addrRNack
  | sdaStuck
  | sclStuck
  | noError
  | unknown (code : Byte)
  deriving DecidableEq, Repr

/-- `exit_code` (R30, R74): 0, 1 or 3; 2 is never produced (R176). -/
inductive ExitCode where
  | ok
  | error
  | timeout
  deriving DecidableEq, Repr

/-- What a command returned to the host (assumption 16). -/
inductive HostResult where
  | nothing
  | word (w : Word)
  | bit (b : Bool)
  | errClass (c : ErrClass)
  | done
  deriving DecidableEq, Repr

/-- A question the engine asks the bus (R112); bytes in the order they travel (R47). -/
inductive BusQuestion where
  | write (slave : Word) (bytes : List Byte)
  | read (slave : Word) (n : Nat)
  deriving DecidableEq, Repr

/-- What the host does next (R188, assumption 13): issues an encoded command, calls an operation as a
procedure with any operands, waits (R203), or begins a new process (R191). -/
inductive HostEvent where
  | issue (c : Command)
  | call (i : Instr)
  | wait
  | newRun
  deriving DecidableEq, Repr

/-- The machine's state. -/
structure State where
  /-- CTRL (R11). -/
  ctrl : Word
  /-- ADDR (R20). -/
  addr : Word
  /-- DOUT (R20). -/
  dout : Word
  /-- DIN (R21); a host read returns only its low `dinBytes` bytes (R87). -/
  din : Word
  /-- How many low bytes of DIN a host read returns: `n` if the last completed transaction was a
  successful read of `n` bytes, else none (R87). -/
  dinBytes : Nat
  /-- STATUS (R17). -/
  status : Status
  /-- `phase` and `latched` (R22, R23). -/
  engine : Engine
  /-- `seq` (R25). -/
  seq : Seq
  /-- `step` (R26). -/
  stepIdx : Nat
  /-- `polls` (R27). -/
  polls : Nat
  /-- `value` (R28). -/
  value : Word
  /-- `err_code` (R29). -/
  errCode : Byte
  /-- `err_class` (R29). -/
  errClass : ErrClass
  /-- `halt` (R30). -/
  halt : Bool
  /-- `exit_code` (R30). -/
  exitCode : ExitCode
  /-- The model's own: what the last command returned (assumption 16). -/
  result : HostResult
  /-- The model's own: the host's events not yet issued, oldest first (assumption 13). -/
  program : List HostEvent
  /-- The model's own: the environment's script (assumption 2). -/
  env : List EnvMove
  /-- The model's own: the index of the free values, one per host access (assumption 26). -/
  tick : Nat
  /-- The model's own: the questions asked of the bus, oldest first (assumption 17). -/
  bus : List BusQuestion
  /-- The model's own: the parameters with a default (assumption 8). -/
  cfg : Params
  deriving DecidableEq, Repr

/-- The outcome the document calls undefined. -/
inductive Fault where
  /-- `write_while_pending` (R90): raised by any host write to one of the five registers while
  PENDING, so by the writing port operations, SETB, CLRB, TWI.ENABLE, TWI.WRITE and TWI.READ.
  Safe: the run stops. -/
  | writeWhilePending
  deriving DecidableEq, Repr

/-- The operations to which the spec gives no meaning (R179), each safe: the run stops. -/
inductive Refusal where
  /-- An instruction not yet modelled: raised by exec only. Safe. -/
  | notModelled (mnemonic : String)
  /-- An access of a width other than 32 bits (R43): raw accesses. Safe. -/
  | width
  /-- An access at an address that is no multiple of 4 (R44): raw accesses. Safe. -/
  | misaligned
  /-- An access outside the five registers (R45): raw accesses. Safe. -/
  | unmappedOffset
  /-- A write to DIN (R89): raw writes, SETB and CLRB. Safe. -/
  | dinWrite
  /-- A write to STATUS of a value other than 3 (R88): raw writes, SETB and CLRB. Safe. -/
  | statusValue
  /-- A start with EN = 0 in the word written (R113): CTRL writes. Safe. -/
  | startWhileDisabled
  /-- A start with DSWAP = 1 (R113): CTRL writes. Safe. -/
  | dswapSet
  /-- A start with RO = 1 (R113): CTRL writes. Safe. -/
  | roSet
  /-- A bit index outside 0..31 (R100): SETB, CLRB, GETB. Safe. -/
  | bitIndex
  /-- A length outside 1..4 (R147): TWI.WRITE, TWI.READ. Safe. -/
  | length
  /-- A transfer before TWI.ENABLE (R147): TWI.WRITE, TWI.READ. Safe. -/
  | notEnabled
  /-- A second TWI.ENABLE (R147). Safe. -/
  | alreadyEnabled
  /-- Any command in ERROR or TIMEOUT (R147, assumption 11). Safe. -/
  | halted
  /-- Any command while another is in progress: the spec says it cannot be issued (R147,
  assumption 12). Safe. -/
  | inProgress
  /-- A CMD16 word outside the numbering (R75, assumption 25): encoded commands. Safe. -/
  | cmd16
  deriving DecidableEq, Repr

/-- The state after hardware reset (R31, R190) under the parameters `p`. The values R31 leaves
unspecified are those of assumptions 3 and 6. -/
def State.resetWith (p : Params) : State :=
  { ctrl := 0x00000000#32, addr := 0x00000000#32, dout := 0x00000000#32,
    din := 0x00000000#32, dinBytes := 0,
    status := { code := p.resetCode, done := false, err := false },
    engine := .idle,
    seq := .uninitialized, stepIdx := 0, polls := 0, value := 0x00000000#32,
    errCode := 0x00#8, errClass := .unknown 0x00#8, halt := false, exitCode := .ok,
    result := .nothing, program := [], env := [], tick := 0, bus := [],
    cfg := p }

/-- The state after hardware reset, the parameters at their defaults and `RESET_CODE` at the value of
assumption 5. -/
def State.reset : State := State.resetWith Config.defaults

end Sys2Proof.Machine
end

