-- ==== Sys2Proof/Machine/Operands.lean ====
section
/-! DEFINITION. Operand forms: the fields of CTRL (spec/10_state.md R12), one-bit masks
(spec/41_bitfield_accessors.md R102 to R104), the length fields (spec/30_encoding.md R65), byte lanes
(spec/20_memory.md R47) and the command captured at a start (spec/42_bus_engine.md R114). -/

namespace Sys2Proof.Machine

/-- The named bits of CTRL (R12). -/
def ctrlEn (v : Word) : Bool := v.getLsbD 31
def ctrlDswap (v : Word) : Bool := v.getLsbD 24
def ctrlStart (v : Word) : Bool := v.getLsbD 6
def ctrlRo (v : Word) : Bool := v.getLsbD 5
def ctrlWe (v : Word) : Bool := v.getLsbD 4

/-- WLEN and RLEN, each the number of bytes minus 1 (R12, R65). -/
def ctrlWlen (v : Word) : Nat := (v.extractLsb' 2 2).toNat
def ctrlRlen (v : Word) : Nat := (v.extractLsb' 0 2).toNat

/-- `1 << n` (R8): the mask of one bit. -/
def bitMask (n : Nat) : Word := 0x00000001#32 <<< n

/-- The word SETB writes back (R102). -/
def setBitOf (w : Word) (n : Nat) : Word := w ||| bitMask n

/-- The word CLRB writes back (R103). -/
def clearBitOf (w : Word) (n : Nat) : Word := w &&& ~~~(bitMask n)

/-- The bit GETB returns, `(w >> n) & 1` (R104). -/
def getBitOf (w : Word) (n : Nat) : Bool := (w >>> n) &&& 0x00000001#32 == 0x00000001#32

/-- `length - 1` as a 2-bit field in a word (R65). -/
def lengthField (len : Int) : Word := BitVec.ofInt 32 (len - 1)

/-- CTRL with the write length replaced: access 2 of TWI.WRITE (R142). -/
def withWlen (c : Word) (len : Int) : Word := (c &&& 0xFFFFFFF3#32) ||| (lengthField len <<< 2)

/-- CTRL with the read length replaced: access 2 of TWI.READ (R143, R13). -/
def withRlen (p : ReadLen) (c : Word) (len : Int) : Word :=
  match p with
  | .lsb0 => (c &&& 0xFFFFFFFC#32) ||| lengthField len
  | .lsb2 => withWlen c len

/-- The number of bytes a command word asks for (R62, R114; R13 for `READ_LEN_LSB` = 2). -/
def commandLength (p : ReadLen) (v : Word) : Nat :=
  if ctrlWe v then ctrlWlen v + 1
  else
    match p with
    | .lsb0 => ctrlRlen v + 1
    | .lsb2 => ctrlWlen v + 1

/-- What acceptance of the start `v` captures (R114). -/
def latch (p : ReadLen) (v addr dout : Word) : Latched :=
  { kind := if ctrlWe v then .write else .read,
    n := commandLength p v, slave := addr, data := dout }

/-- Byte `k` of a register in bus order: bits `8k+7 : 8k` (R47). -/
def byteLane (d : Word) (k : Nat) : Byte := d.extractLsb' (8 * k) 8

/-- The first `n` bytes of a register in the order they travel, byte 0 first (R47). -/
def busBytes (d : Word) (n : Nat) : List Byte := (List.range n).map (byteLane d)

/-- Four bytes in the lanes of a register, the first on the bus in the low byte (R47). -/
def fromLanes (b0 b1 b2 b3 : Byte) : Word := b3 ++ b2 ++ b1 ++ b0

/-- The low `n` bytes of `known`, the rest from `free` (R87). -/
def overlay (n : Nat) (known free : Word) : Word :=
  if 4 ≤ n then known
  else (known &&& (bitMask (8 * n) - 1#32)) ||| (free &&& ~~~(bitMask (8 * n) - 1#32))

/-- The question a latched command asks the bus (R112, R116). -/
def busQuestion (c : Latched) : BusQuestion :=
  match c.kind with
  | .write => .write c.slave (busBytes c.data c.n)
  | .read => .read c.slave c.n

end Sys2Proof.Machine
end

