-- ==== Sys2Proof/Machine/Flags.lean ====
section
/-! DEFINITION. STATUS: its word (spec/30_encoding.md R66), who sets and clears ERR, DONE and CODE
(spec/10_state.md R17, spec/42_bus_engine.md R114, R116), and the error table
(spec/43_sequencer.md R146). -/

namespace Sys2Proof.Machine

/-- The value a read of STATUS returns (R66, R91). -/
def statusWord (f : Status) : Word :=
  (f.code.setWidth 32 <<< 8) ||| ((BitVec.ofBool f.done).setWidth 32 <<< 1) |||
    (BitVec.ofBool f.err).setWidth 32

/-- The done flag, the error flag and the code in a word read from STATUS (R66). -/
def wordDone (w : Word) : Bool := getBitOf w 1
def wordErr (w : Word) : Bool := getBitOf w 0
def wordCode (w : Word) : Byte := w.extractLsb' 8 8

/-- ERR and DONE to 0, CODE unchanged: the literal 3 (R88). -/
def clearFlags (f : Status) : Status := { f with done := false, err := false }

/-- The flags when a start is accepted (R114). -/
def acceptedFlags (p : Params) (f : Status) : Status :=
  if p.startClearsFlags then clearFlags f else f

/-- The failure code a transaction ends with, none on success (R111, R116). -/
def failureCode (c : Latched) (w : WriteAnswer) (r : ReadAnswer) : Option Byte :=
  match c.kind with
  | .write =>
    match w with
    | .ack => none
    | .err code => some code
  | .read =>
    match r with
    | .data _ _ _ _ => none
    | .err code => some code

/-- STATUS at completion (R116). -/
def completedFlags (p : Params) (f : Status) (failure : Option Byte) : Status :=
  match failure with
  | none => { code := p.codeOk, done := true, err := false }
  | some code => { code := code, done := p.errorSetsDone || f.done, err := true }

/-- The error table, total on all 256 codes (R68, R146). -/
def decodeClass (code : Byte) : ErrClass :=
  if code = 0x20#8 then .addrWNack
  else if code = 0x30#8 then .dataNack
  else if code = 0x48#8 then .addrRNack
  else if code = 0x70#8 then .sdaStuck
  else if code = 0x90#8 then .sclStuck
  else if code = 0xFF#8 then .noError
  else .unknown code

/-- The document's message of a class (R146); the rendering of an unknown code is open. -/
def classMessage : ErrClass → String
  | .addrWNack => "address+write transmitted, slave NACK"
  | .dataNack => "data byte transmitted, NACK"
  | .addrRNack => "address+read transmitted, NACK"
  | .sdaStuck => "bus error, data line stuck low"
  | .sclStuck => "bus error, clock line stuck low"
  | .noError => "no error"
  | .unknown code => "unknown error " ++ Config.unknownCodeText code

/-- The 2-bit exit code (R74, R176). -/
def exitBits : ExitCode → BitVec 2
  | .ok => 0#2
  | .error => 1#2
  | .timeout => 3#2

end Sys2Proof.Machine
end

