-- ==== Sys2Proof/Machine/Ops.lean ====
section
/-! DEFINITION. The shared operations: the engine's step (spec/42_bus_engine.md R116, R117), the
register port (spec/40_register_port.md R79 to R92), the accessors over it
(spec/41_bitfield_accessors.md), the fatal halt (spec/60_exceptions.md R174), the new process
(spec/70_reset_and_hazards.md R191) and the check every command passes (spec/43_sequencer.md R147). -/

namespace Sys2Proof.Machine

/-- What an operation made of register accesses ends in: a value and a state, or a stop. -/
inductive Run (α : Type) where
  | ok (a : α) (s : State)
  | fault (f : Fault)
  | refused (r : Refusal)
  deriving DecidableEq, Repr

/-- One operation after another; a stop ends both (R173). -/
def Run.bind {α β : Type} (r : Run α) (k : α → State → Run β) : Run β :=
  match r with
  | .ok a s => k a s
  | .fault f => .fault f
  | .refused e => .refused e

/-- Advance `step` by the accesses just made (R26). -/
def countSteps (k : Nat) (s : State) : State := { s with stepIdx := s.stepIdx + k }

/-- An operation of `k` accesses inside a sequenced operation (R26). -/
def counted {α : Type} (k : Nat) (r : Run α) : Run α :=
  r.bind fun a s => .ok a (countSteps k s)

/-- The value DIN takes at completion (R116); the bits it leaves unspecified are free. -/
def completedDin (c : Latched) (r : ReadAnswer) (s : State) : Word :=
  match c.kind with
  | .write => s.din
  | .read =>
    match r with
    | .data b0 b1 b2 b3 => overlay c.n (fromLanes b0 b1 b2 b3) (Config.dinFill s.tick)
    | .err _ => Config.dinFill s.tick

/-- How many bytes of DIN a host read returns after completion: those of a successful read, none after
a failed read or any write, which changes no bit of DIN itself (R21, R87, R116; assumption 4). -/
def completedDinBytes (c : Latched) (r : ReadAnswer) : Nat :=
  match c.kind with
  | .write => 0
  | .read =>
    match r with
    | .data _ _ _ _ => c.n
    | .err _ => 0

/-- The completion step (R116), one atomic step (R51): the bus has answered `w` to a write, `r` to a
read. -/
def complete (c : Latched) (w : WriteAnswer) (r : ReadAnswer) (s : State) : State :=
  { s with
    ctrl := clearBitOf s.ctrl 6,
    din := completedDin c r s,
    dinBytes := completedDinBytes c r,
    status := completedFlags s.cfg s.status (failureCode c w r),
    engine := .idle,
    bus := s.bus ++ [busQuestion c] }

/-- What engine and bus do before the next host access while `c` is pending (R54, R117): the
script's entry, or, when the script is at its end, the free schedule and oracle (assumption 2). -/
def nextMove (c : Latched) (s : State) : EnvMove :=
  match s.env with
  | m :: _ => m
  | [] =>
    if Config.engineMoves s.tick then
      .move (Config.busWrite s.tick c.slave (busBytes c.data c.n))
        (Config.busRead s.tick c.slave c.n)
    else .hold

/-- The engine's opportunity between two host accesses (R54): at most one completion step, and only
while PENDING. -/
def engineTurn (s : State) : State :=
  match s.engine with
  | .idle => s
  | .pending c =>
    match nextMove c s with
    | .hold => { s with env := s.env.tail }
    | .move w r => complete c w r { s with env := s.env.tail }

/-- One host access, or one wait, has passed (assumption 26). -/
def tickOn (s : State) : State := { s with tick := s.tick + 1 }

/-- The value a host read of DIN returns (R87): wholly unspecified while a read is pending, else its
specified low bytes under unspecified high bits. -/
def dinValue (s : State) : Word :=
  match s.engine with
  | .pending { kind := .read, .. } => Config.dinDraw s.tick
  | _ => overlay s.dinBytes s.din (Config.dinDraw s.tick)

/-- The value a host read returns (R80, R83, R85, R87, R91). -/
def readValue (x : Reg) (s : State) : Word :=
  match x with
  | .ctrl => s.ctrl
  | .addr => s.addr
  | .dout => s.dout
  | .din => dinValue s
  | .status => statusWord s.status

/-- A host read of a register: the engine's opportunity, then one atomic access without side effect
(R50, R51, R92). -/
def readReg (x : Reg) (s : State) : Run Word :=
  .ok (readValue x (engineTurn s)) (tickOn (engineTurn s))

/-- The start `v` accepted (R114). -/
def accept (v : Word) (s : State) : State :=
  { s with
    ctrl := v,
    status := acceptedFlags s.cfg s.status,
    engine := .pending (latch s.cfg.readLen v s.addr s.dout) }

/-- A write to CTRL while IDLE: a plain store, or the trigger with its conditions in the order of
R82 (R81, R82, R113). -/
def writeCtrl (v : Word) (s : State) : Run Unit :=
  if ctrlStart v then
    if ctrlEn v = false then .refused .startWhileDisabled
    else if ctrlDswap v then .refused .dswapSet
    else if ctrlRo v then .refused .roSet
    else .ok () (accept v s)
  else .ok () { s with ctrl := v }

/-- A write to STATUS while IDLE (R88). -/
def writeStatus (v : Word) (s : State) : Run Unit :=
  if v = Config.statusClearLiteral then .ok () { s with status := clearFlags s.status }
  else .refused .statusValue

/-- A host write while IDLE (R81, R82, R84, R86, R88, R89). -/
def writeIdle (x : Reg) (v : Word) (s : State) : Run Unit :=
  match x with
  | .ctrl => writeCtrl v s
  | .addr => .ok () { s with addr := v }
  | .dout => .ok () { s with dout := v }
  | .din => .refused .dinWrite
  | .status => writeStatus v s

/-- A host write of a register: the engine's opportunity, then check (4) of R79, then the rule of
the register (R90). -/
def writeReg (x : Reg) (v : Word) (s : State) : Run Unit :=
  match (engineTurn s).engine with
  | .pending _ => .fault .writeWhilePending
  | .idle => (writeIdle x v (engineTurn s)).bind fun _ t => .ok () (tickOn t)

/-- The refusal of an access that reaches no register (R79). -/
def refusalOf : AccessReject → Refusal
  | .width => .width
  | .misaligned => .misaligned
  | .unmappedOffset => .unmappedOffset

/-- A host read of any width at any offset (R79). -/
def readPort (width : Nat) (off : Int) (s : State) : Run Word :=
  match windowReg width off with
  | .error r => .refused (refusalOf r)
  | .ok x => readReg x s

/-- A host write of any width at any offset (R79). -/
def writePort (width : Nat) (off : Int) (v : Word) (s : State) : Run Unit :=
  match windowReg width off with
  | .error r => .refused (refusalOf r)
  | .ok x => writeReg x v s

/-- `MemRead(addr, size)` and `MemWrite(addr, size, v)` at a physical address, size in bytes (R7,
R42); everything below `TWI_BASE` is a negative offset. -/
def memRead (a : Nat) (size : Nat) (s : State) : Run Word :=
  readPort (8 * size) ((a : Int) - (Config.twiBase : Int)) s
def memWrite (a : Nat) (size : Nat) (v : Word) (s : State) : Run Unit :=
  writePort (8 * size) ((a : Int) - (Config.twiBase : Int)) v s

/-- SETB: one read, then one write of the word with the bit set (R101, R102). -/
def setBit (x : Reg) (n : Nat) (s : State) : Run Unit :=
  (readReg x s).bind fun w t => writeReg x (setBitOf w n) t

/-- CLRB: one read, then one write of the word with the bit cleared (R101, R103). -/
def clearBit (x : Reg) (n : Nat) (s : State) : Run Unit :=
  (readReg x s).bind fun w t => writeReg x (clearBitOf w n) t

/-- GETB: one read (R101, R104). -/
def getBit (x : Reg) (n : Nat) (s : State) : Run Bool :=
  (readReg x s).bind fun w t => .ok (getBitOf w n) t

/-- An accessor with any integer bit index: outside 0..31 it is refused and makes no access (R100). -/
def withBitIndex {α : Type} (n : Int) (k : Nat → Run α) : Run α :=
  if n < 0 ∨ n > 31 then .refused .bitIndex else k n.toNat

/-- The kinds of fatal outcome (R170, R174). -/
inductive Fatal where
  | timeout
  | protocolError (code : Byte)
  deriving DecidableEq, Repr

/-- The fatal halt (R174): writes no register of the block, goes nowhere, and has no return (R175). -/
def raiseFatal (kind : Fatal) (s : State) : State :=
  match kind with
  | .timeout => { s with seq := .timeout, exitCode := .timeout, halt := true }
  | .protocolError code =>
    { s with
      errCode := code, errClass := decodeClass code,
      seq := .error, exitCode := .error, halt := true }

/-- A new process (R191): the sequencer's state made anew, the register block kept. -/
def newProcess (s : State) : State :=
  { s with
    seq := State.reset.seq, stepIdx := State.reset.stepIdx, polls := State.reset.polls,
    value := State.reset.value, errCode := State.reset.errCode,
    errClass := State.reset.errClass, halt := State.reset.halt,
    exitCode := State.reset.exitCode, result := State.reset.result }

/-- The states of the sequencer in which no further command is accepted (R147, R175). -/
def seqHalted : Seq → Bool
  | .error => true
  | .timeout => true
  | _ => false

/-- The states in which a sequenced operation is in progress (R147). -/
def seqBusy : Seq → Bool
  | .writePending => true
  | .readPending => true
  | _ => false

/-- A command's end: its result handed to the host, or its stop. -/
def finish (r : Run HostResult) : Host.Outcome State Fault Refusal :=
  match r with
  | .ok v s => .next { s with result := v }
  | .fault f => .fault f
  | .refused e => .refused e

/-- The check common to all commands, before any access (R147, R173): the sequencer is neither
halted nor in the middle of an operation. -/
def command (k : State → Run HostResult) (s : State) : Host.Outcome State Fault Refusal :=
  if seqHalted s.seq then .refused .halted
  else if seqBusy s.seq then .refused .inProgress
  else finish (k s)

/-- A read as a command: it returns the value read. -/
def readCommand (x : Reg) (s : State) : Host.Outcome State Fault Refusal :=
  command (fun s => (readPort Config.regWidth (regOffset x) s).bind fun w t => .ok (.word w) t) s

/-- A write as a command: it returns nothing. -/
def writeCommand (x : Reg) (v : Word) (s : State) : Host.Outcome State Fault Refusal :=
  command
    (fun s => (writePort Config.regWidth (regOffset x) v s).bind fun _ t => .ok .nothing t) s

end Sys2Proof.Machine
end

