-- ==== Sys2Proof/Machine/Accessors.lean ====
section
/-! DEFINITION. The bit-field accessors SETB, CLRB, GETB (spec/41_bitfield_accessors.md). -/

namespace Sys2Proof.Machine

/-- SETB X, n (R102). -/
def execSetb (x : Reg) (n : Int) (s : State) : Host.Outcome State Fault Refusal :=
  command (fun s => withBitIndex n fun k => (setBit x k s).bind fun _ t => .ok .nothing t) s

/-- CLRB X, n (R103). -/
def execClrb (x : Reg) (n : Int) (s : State) : Host.Outcome State Fault Refusal :=
  command (fun s => withBitIndex n fun k => (clearBit x k s).bind fun _ t => .ok .nothing t) s

/-- GETB X, n (R104). -/
def execGetb (x : Reg) (n : Int) (s : State) : Host.Outcome State Fault Refusal :=
  command (fun s => withBitIndex n fun k => (getBit x k s).bind fun b t => .ok (.bit b) t) s

end Sys2Proof.Machine
end

