-- ==== Sys2Proof/Machine/Bus.lean ====
section
/-! DEFINITION. The two commands of the bus engine, XFER.W and XFER.R: the trigger
(spec/40_register_port.md R82, spec/42_bus_engine.md R113, R114). Their completion is the engine's
step (`engineTurn`, `complete` of Machine/Ops.lean; R116, R117). -/

namespace Sys2Proof.Machine

/-- XFER.W: the write of a command word with WE = 1 (R121). -/
def execXferW (v : Word) (s : State) : Host.Outcome State Fault Refusal := writeCommand .ctrl v s

/-- XFER.R: the write of a command word with WE = 0 (R122). -/
def execXferR (v : Word) (s : State) : Host.Outcome State Fault Refusal := writeCommand .ctrl v s

end Sys2Proof.Machine
end

