-- ==== Sys2Proof/Machine/Port.lean ====
section
/-! DEFINITION. The register-port operations of spec/40_register_port.md but the two commands:
CTRL.LD, CTRL.ST, ADDR.LD, ADDR.ST, DOUT.LD, DOUT.ST, DIN.LD, STATUS.LD, STCLR. -/

namespace Sys2Proof.Machine

/-- CTRL.LD: `RD32 0x00` (R80). -/
def execCtrlLd (s : State) : Host.Outcome State Fault Refusal := readCommand .ctrl s

/-- CTRL.ST: `WR32 0x00, v` (R81). -/
def execCtrlSt (v : Word) (s : State) : Host.Outcome State Fault Refusal := writeCommand .ctrl v s

/-- ADDR.LD: `RD32 0x08` (R83). -/
def execAddrLd (s : State) : Host.Outcome State Fault Refusal := readCommand .addr s

/-- ADDR.ST: `WR32 0x08, v` (R84). -/
def execAddrSt (v : Word) (s : State) : Host.Outcome State Fault Refusal := writeCommand .addr v s

/-- DOUT.LD: `RD32 0x0C` (R85). -/
def execDoutLd (s : State) : Host.Outcome State Fault Refusal := readCommand .dout s

/-- DOUT.ST: `WR32 0x0C, v` (R86). -/
def execDoutSt (v : Word) (s : State) : Host.Outcome State Fault Refusal := writeCommand .dout v s

/-- DIN.LD: `RD32 0x10` (R87). -/
def execDinLd (s : State) : Host.Outcome State Fault Refusal := readCommand .din s

/-- STATUS.LD: `RD32 0x14` (R91). -/
def execStatusLd (s : State) : Host.Outcome State Fault Refusal := readCommand .status s

/-- STCLR: `WR32 0x14, 0x00000003` (R88). -/
def execStclr (s : State) : Host.Outcome State Fault Refusal :=
  writeCommand .status 0x00000003#32 s

end Sys2Proof.Machine
end

