-- ==== Sys2Proof/Machine/Sequencer.lean ====
section
/-! DEFINITION. The sequencer: TWI.ENABLE, TWI.WRITE, TWI.READ, TWI.POLL, TWI.DECODE
(spec/43_sequencer.md). `counted k` advances `step` by the `k` accesses of a line (R26). -/

namespace Sys2Proof.Machine

/-- An operation begins: `step` counts from 0 (R26). -/
def beginOperation (s : State) : State := { s with stepIdx := 0 }

/-- The bounded wait (R144) with `k` reads of the done flag left: whether it was read as 1. -/
def pollLoop : Nat → State → Run Bool
  | 0, s => .ok false s
  | k + 1, s =>
    (counted 1 (getBit .status 1 s)).bind fun d t =>
      if d then .ok true { t with polls := t.polls + 1 }
      else pollLoop k { t with polls := t.polls + 1 }

/-- The error check (R145): whether the transaction ended well; otherwise the fatal halt is raised. -/
def errorCheck (s : State) : Run Bool :=
  (counted 1 (getBit .status 0 s)).bind fun e t =>
    if e then
      (counted 1 (readReg .status t)).bind fun w u =>
        .ok false (raiseFatal (.protocolError (wordCode w)) u)
    else .ok true t

/-- The poll: `polls` from 0, at most `POLL_BOUND` reads, then the error check or the fatal halt
(R144, R145). True is the result `done`, false a fatal outcome. -/
def poll (s : State) : Run Bool :=
  (pollLoop s.cfg.pollBound { s with polls := 0 }).bind fun d t =>
    if d then errorCheck t else .ok false (raiseFatal .timeout t)

/-- The five accesses of TWI.ENABLE (R141). -/
def enableAccesses (s : State) : Run Unit :=
  (counted 2 (setBit .ctrl 31 s)).bind fun _ s =>
  (counted 2 (clearBit .ctrl 24 s)).bind fun _ s =>
  counted 1 (writeReg .status Config.statusClearLiteral s)

/-- TWI.ENABLE (R141). -/
def execTwiEnable (s : State) : Host.Outcome State Fault Refusal :=
  command
    (fun s =>
      if s.seq = .uninitialized then
        (enableAccesses (beginOperation s)).bind fun _ t =>
          .ok .nothing { t with seq := .enabled }
      else .refused .alreadyEnabled) s

/-- What TWI.WRITE and TWI.READ require before any access (R142, R143, R147). -/
def requireTransfer {α : Type} (len : Int) (s : State) (k : Run α) : Run α :=
  if s.seq = .uninitialized then .refused .notEnabled
  else if Config.lenMin ≤ len ∧ len ≤ Config.lenMax then k
  else .refused .length

/-- The ten accesses of TWI.WRITE before the poll (R142). -/
def writeAccesses (slave : Word) (len : Int) (data : Word) (s : State) : Run Unit :=
  (counted 1 (readReg .ctrl s)).bind fun c s =>
  (counted 1 (writeReg .ctrl (withWlen c len) s)).bind fun _ s =>
  (counted 2 (clearBit .ctrl 5 s)).bind fun _ s =>
  (counted 2 (setBit .ctrl 4 s)).bind fun _ s =>
  (counted 1 (writeReg .dout data s)).bind fun _ s =>
  (counted 1 (writeReg .addr slave s)).bind fun _ s =>
  counted 2 (setBit .ctrl 6 s)

/-- TWI.WRITE (R142): done, or a fatal outcome that leaves `halt` set. -/
def execTwiWrite (slave : Word) (len : Int) (data : Word) (s : State) :
    Host.Outcome State Fault Refusal :=
  command
    (fun s =>
      requireTransfer len s
        ((writeAccesses slave len data (beginOperation { s with seq := .writePending })).bind
          fun _ s =>
          (poll s).bind fun d s =>
            if d then .ok .nothing { s with seq := .done } else .ok .nothing s)) s

/-- The nine accesses of TWI.READ before the poll (R143). -/
def readAccesses (slave : Word) (len : Int) (s : State) : Run Unit :=
  (counted 1 (readReg .ctrl s)).bind fun c s =>
  (counted 1 (writeReg .ctrl (withRlen s.cfg.readLen c len) s)).bind fun _ s =>
  (counted 2 (clearBit .ctrl 4 s)).bind fun _ s =>
  (counted 2 (clearBit .ctrl 5 s)).bind fun _ s =>
  (counted 1 (writeReg .addr slave s)).bind fun _ s =>
  counted 2 (setBit .ctrl 6 s)

/-- TWI.READ (R143): on done the whole of DIN is returned and recorded in `value`. -/
def execTwiRead (slave : Word) (len : Int) (s : State) : Host.Outcome State Fault Refusal :=
  command
    (fun s =>
      requireTransfer len s
        ((readAccesses slave len (beginOperation { s with seq := .readPending })).bind fun _ s =>
          (poll s).bind fun d s =>
            if d then
              (counted 1 (readReg .din s)).bind fun w s =>
                .ok (.word w) { s with value := w, seq := .done }
            else .ok .nothing s)) s

/-- TWI.POLL on its own (R144, R145): the tail of a transfer, leaving `seq` as it was unless a fatal
outcome is raised (assumption 18). -/
def execTwiPoll (s : State) : Host.Outcome State Fault Refusal :=
  command
    (fun s =>
      (poll (beginOperation s)).bind fun d s =>
        if d then .ok .done s else .ok .nothing s) s

/-- TWI.DECODE code (R146): reads no register and writes none. -/
def execTwiDecode (code : Byte) (s : State) : Host.Outcome State Fault Refusal :=
  command (fun s => .ok (.errClass (decodeClass code)) s) s

end Sys2Proof.Machine
end

