-- ==== Sys2Proof/Machine/Dispatch.lean ====
section
/-! DEFINITION. One arm per operation of spec/opcode_table.json. -/

namespace Sys2Proof.Machine

def exec (i : Instr) (s : State) : Host.Outcome State Fault Refusal :=
  match i with
  | .ctrlLd => Sys2Proof.Machine.execCtrlLd s
  | .ctrlSt v => Sys2Proof.Machine.execCtrlSt v s
  | .xferW v => Sys2Proof.Machine.execXferW v s
  | .xferR v => Sys2Proof.Machine.execXferR v s
  | .addrLd => Sys2Proof.Machine.execAddrLd s
  | .addrSt v => Sys2Proof.Machine.execAddrSt v s
  | .doutLd => Sys2Proof.Machine.execDoutLd s
  | .doutSt v => Sys2Proof.Machine.execDoutSt v s
  | .dinLd => Sys2Proof.Machine.execDinLd s
  | .statusLd => Sys2Proof.Machine.execStatusLd s
  | .stclr => Sys2Proof.Machine.execStclr s
  | .setb x n => Sys2Proof.Machine.execSetb x n s
  | .clrb x n => Sys2Proof.Machine.execClrb x n s
  | .getb x n => Sys2Proof.Machine.execGetb x n s
  | .twiEnable => Sys2Proof.Machine.execTwiEnable s
  | .twiWrite slave len data => Sys2Proof.Machine.execTwiWrite slave len data s
  | .twiRead slave len => Sys2Proof.Machine.execTwiRead slave len s
  | .twiPoll => Sys2Proof.Machine.execTwiPoll s
  | .twiDecode code => Sys2Proof.Machine.execTwiDecode code s

end Sys2Proof.Machine
end

