-- ==== Sys2Proof/Machine/Events.lean ====
section
/-! DEFINITION. What the host does next: commands, waits, new processes and the end of a run
(spec/60_exceptions.md R188, spec/70_reset_and_hazards.md R191, R203). -/

namespace Sys2Proof.Machine

/-- An encoded command that is no operation of the table: a raw access meets the register port's own
checks and rules (R79, R89, R90, R113, R88), a CMD16 word outside the numbering is refused (R75). -/
def rawCommand (c : Command) (s : State) : Host.Outcome State Fault Refusal :=
  match c with
  | .read width off =>
    command (fun s => (readPort width off s).bind fun w t => .ok (.word w) t) s
  | .write width off v =>
    command (fun s => (writePort width off v s).bind fun _ t => .ok .nothing t) s
  | .cmd16 _ _ => command (fun _ => .refused .cmd16) s

/-- The host issues an encoded command. -/
def issueCommand (c : Command) (s : State) : Host.Outcome State Fault Refusal :=
  match decode c with
  | .ok i => exec i s
  | .error _ => rawCommand c s

/-- The rest of a process's commands dropped, up to the next process. -/
def dropToNewRun : List HostEvent → List HostEvent
  | [] => []
  | .newRun :: rest => .newRun :: rest
  | .issue _ :: rest => dropToNewRun rest
  | .call _ :: rest => dropToNewRun rest
  | .wait :: rest => dropToNewRun rest

/-- After a command: at a fatal end the host has left and its remaining commands are never executed
(R188). -/
def endOfCommand (o : Host.Outcome State Fault Refusal) : Host.Outcome State Fault Refusal :=
  match o with
  | .next t => if t.halt then .next { t with program := dropToNewRun t.program } else .next t
  | .fault f => .fault f
  | .refused r => .refused r

/-- The host makes no access: the block does nothing (R190, R203), the engine may complete (R117). -/
def idleStep (s : State) : State := tickOn (engineTurn s)

/-- One event of the host, its later events being `rest`. -/
def runEvent (e : HostEvent) (rest : List HostEvent) (s : State) :
    Host.Outcome State Fault Refusal :=
  match e with
  | .issue c => endOfCommand (issueCommand c { s with program := rest })
  | .call i => endOfCommand (exec i { s with program := rest })
  | .wait => .next (idleStep { s with program := rest })
  | .newRun => .next (newProcess { s with program := rest })

/-- The next event of the host, or none. -/
def nextEvent (s : State) : Host.Outcome State Fault Refusal :=
  match s.program with
  | [] => .next (idleStep s)
  | e :: rest => runEvent e rest s

end Sys2Proof.Machine
end

