-- ==== Sys2Proof/Machine/Step.lean ====
section
/-! DEFINITION. One step of the machine, and the placing of an instruction where it is read next. -/

namespace Sys2Proof.Machine

/-- One step: the host's next event (Machine/Events.lean). -/
def step (s : State) : Host.Outcome State Fault Refusal := nextEvent s

/-- The instruction numbered `w` placed first among the host's events (assumption 13). -/
def State.withFetchWord (s : State) (nbits w : Nat) : State :=
  { s with program := .issue (commandOfTableWord nbits w) :: s.program }

end Sys2Proof.Machine
end

