-- ==== Sys2Proof/Safety.lean ====
section
/-! DEFINITION. What claims are stated in: when a command may be issued, the start-of-run premise
(spec/70_reset_and_hazards.md R192), the ends of a run (spec/60_exceptions.md R188), the premises on
the environment (spec/42_bus_engine.md R120), and the machine's invariant. -/

namespace Sys2Proof.Machine

/-- A command may be issued: the sequencer is neither halted nor in the middle of an operation
(R147). -/
def State.ready (s : State) : Bool := !seqHalted s.seq && !seqBusy s.seq

/-- TWI.WRITE and TWI.READ may begin (R140, R142, R143). -/
def State.transferReady (s : State) : Bool := s.seq == .enabled || s.seq == .done

/-- The start-of-run premise (R192): IDLE and START = 0, every other register bit arbitrary. -/
def State.cleanStart (s : State) : Bool := s.engine == .idle && !ctrlStart s.ctrl

/-- What TWI.ENABLE establishes of CTRL, and every transfer needs (R142, R113). -/
def State.enabledIdle (s : State) : Bool :=
  s.cleanStart && ctrlEn s.ctrl && !ctrlDswap s.ctrl

/-- The host has no further command in this process (R188). -/
def State.listOver (s : State) : Bool :=
  match s.program with
  | [] => true
  | .newRun :: _ => true
  | _ => false

/-- The normal end of a run (R188 a): the list is over, `halt` = 0 and the engine IDLE. -/
def State.normalEnd (s : State) : Bool := s.listOver && !s.halt && s.engine == .idle

/-- The fatal end of a run (R188 b). -/
def State.fatalEnd (s : State) : Bool := s.halt

/-- The codes a well-behaved environment reports on a write and on a read (R120). -/
def writeWellBehaved : WriteAnswer → Bool
  | .ack => true
  | .err code => code == 0x20#8 || code == 0x30#8 || code == 0x70#8 || code == 0x90#8
def readWellBehaved : ReadAnswer → Bool
  | .data _ _ _ _ => true
  | .err code => code == 0x48#8 || code == 0x70#8 || code == 0x90#8

/-- START = 1 exactly while PENDING (R16), and the command latched is still the one that CTRL, ADDR
and DOUT give, since no write is made while PENDING (R90, R114). -/
def State.engineMatchesCtrl (s : State) : Prop :=
  match s.engine with
  | .idle => ctrlStart s.ctrl = false
  | .pending c =>
    ctrlStart s.ctrl = true ∧ ctrlEn s.ctrl = true ∧ ctrlDswap s.ctrl = false ∧
      ctrlRo s.ctrl = false ∧ c = latch s.cfg.readLen s.ctrl s.addr s.dout

/-- `halt` = 1 exactly in ERROR and TIMEOUT, with the exit code and the class they record (R30, R174). -/
def State.haltMatchesSeq (s : State) : Prop :=
  (s.halt = seqHalted s.seq) ∧
    (s.seq = .error → s.exitCode = .error ∧ s.errClass = decodeClass s.errCode) ∧
    (s.seq = .timeout → s.exitCode = .timeout)

/-- The machine's invariant: the two above, a read of DIN returns at most four of its bytes (R87), and the
poll count is at most `POLL_BOUND` (R27). -/
def State.Inv (s : State) : Prop :=
  s.engineMatchesCtrl ∧ s.haltMatchesSeq ∧ s.dinBytes ≤ 4 ∧ s.polls ≤ s.cfg.pollBound

/-- The sequencer's state (R25 to R30) is the same in both states. -/
def sameSequencer (s t : State) : Prop :=
  t.seq = s.seq ∧ t.stepIdx = s.stepIdx ∧ t.polls = s.polls ∧ t.value = s.value ∧
    t.errCode = s.errCode ∧ t.errClass = s.errClass ∧ t.halt = s.halt ∧ t.exitCode = s.exitCode

/-- The host's list, the parameters and the last result are the same in both states. -/
def sameHost (s t : State) : Prop := t.program = s.program ∧ t.cfg = s.cfg ∧ t.result = s.result

/-- The operations that are no operation of the sequencer: the register port and the accessors (R3). -/
def isPortOrAccessor : Instr → Bool
  | .twiEnable => false
  | .twiWrite _ _ _ => false
  | .twiRead _ _ => false
  | .twiPoll => false
  | .twiDecode _ => false
  | _ => true

end Sys2Proof.Machine
end

