-- ==== Sys2Proof/Certificates/Slice0/Obligations.lean ====
section
/-! DEFINITION. The statements for the provers, from the numbered rules of spec/. Each next state is
written out, so it says the result and the frame at once: a field not named is unchanged. -/

open Sys2Proof Sys2Proof.Machine

/-! ### Encoding (spec/30_encoding.md) -/

/-- Every well-formed instruction comes back from its encoding, with every operand. -/
def Obligations.DecodeOfEncodeIsTheInstruction : Prop :=
  ∀ i : Instr, i.wellFormed = true → decode (encode i) = .ok i

/-- What the decoder accepts is well-formed, lies on its row of the opcode table, and has no other
encoding. -/
def Obligations.DecodedCommandIsWellFormedAndEncodesBack : Prop :=
  ∀ (c : Command) (i : Instr), decode c = .ok i →
    i.wellFormed = true ∧ i.row.admits c = true ∧ encode i = c

/-- No command falls under two different rows of the opcode table. -/
def Obligations.TableRowsNeverOverlap : Prop :=
  ∀ (i j : Instr) (c : Command), i.row.admits c = true → j.row.admits c = true → i.row = j.row

/-- Words written out from R63, R64, R67, R75 and from section 4 of spec/95_test_vectors.md. -/
def Obligations.WordsOfTheSpecDecode : Prop :=
  decode (.write 32 0x00 0x8000005C#32) = .ok (.xferW 0x8000005C#32) ∧
  decode (.write 32 0x00 0x80000043#32) = .ok (.xferR 0x80000043#32) ∧
  decode (.write 32 0x00 0x80000010#32) = .ok (.ctrlSt 0x80000010#32) ∧
  decode (.write 32 0x14 0x00000003#32) = .ok .stclr ∧
  decode (.read 32 0x10) = .ok .dinLd ∧
  decode (.cmd16 0x101F#16 []) = .ok (.setb .ctrl 31) ∧
  decode (.cmd16 0x2018#16 []) = .ok (.clrb .ctrl 24) ∧
  decode (.cmd16 0x3A01#16 []) = .ok (.getb .status 1) ∧
  decode (.cmd16 0x9003#16 [0x00000049#32, 0xA1B2C3D4#32]) =
    .ok (.twiWrite 0x00000049#32 4 0xA1B2C3D4#32) ∧
  decode (.cmd16 0xA001#16 [0x00000049#32]) = .ok (.twiRead 0x00000049#32 2) ∧
  decode (.cmd16 0xC020#16 []) = .ok (.twiDecode 0x20#8)

/-- The length fields (R65): `length - 1` at bits 3:2 for a write and, unshifted, at bits 1:0 for a
read; decoding adds 1; both bits are replaced and no other bit changes. -/
def Obligations.LengthFieldHoldsLengthMinusOne : Prop :=
  ∀ (c : Word) (len : Int), 1 ≤ len → len ≤ 4 →
    ((ctrlWlen (withWlen c len) : Int) + 1 = len ∧
      ∀ j, j < 32 → j ≠ 2 → j ≠ 3 → (withWlen c len).getLsbD j = c.getLsbD j) ∧
    ((ctrlRlen (withRlen .lsb0 c len) : Int) + 1 = len ∧
      ∀ j, 2 ≤ j → j < 32 → (withRlen .lsb0 c len).getLsbD j = c.getLsbD j) ∧
    withRlen .lsb2 c len = withWlen c len

/-- The bytes of a write leave in lane order, byte 0 first, and a read's bytes enter the same lanes
(R47). -/
def Obligations.BusByteKIsLaneK : Prop :=
  (∀ (d : Word) (n : Nat), (busBytes d n).length = n ∧
    ∀ k, k < n → (busBytes d n)[k]? = some (d.extractLsb' (8 * k) 8)) ∧
  ∀ b0 b1 b2 b3 : Byte, busBytes (fromLanes b0 b1 b2 b3) 4 = [b0, b1, b2, b3]

/-! ### The register port (spec/20_memory.md, spec/40_register_port.md) -/

/-- The order of checks of R79: width, alignment, offset, pending, then the register's own rule. -/
def Obligations.PortChecksComeInOrder : Prop :=
  ∀ (s : State) (width : Nat) (off : Int) (v : Word), s.ready = true →
    (width ≠ 32 →
      issueCommand (.read width off) s = .refused .width ∧
      issueCommand (.write width off v) s = .refused .width) ∧
    (width = 32 → off % 4 ≠ 0 →
      issueCommand (.read width off) s = .refused .misaligned ∧
      issueCommand (.write width off v) s = .refused .misaligned) ∧
    (width = 32 → off % 4 = 0 → off ∉ [(0x00 : Int), 0x08, 0x0C, 0x10, 0x14] →
      issueCommand (.read width off) s = .refused .unmappedOffset ∧
      issueCommand (.write width off v) s = .refused .unmappedOffset) ∧
    (∀ x : Reg, width = 32 → off = regOffset x →
      issueCommand (.read width off) s = exec (decodeRead x) s ∧
      ((engineTurn s).engine ≠ .idle →
        issueCommand (.write width off v) s = .fault .writeWhilePending) ∧
      ((engineTurn s).engine = .idle →
        issueCommand (.write width off v) s =
          finish ((writeIdle x v (engineTurn s)).bind fun _ t => .ok .nothing (tickOn t))))

/-- The window at physical addresses (R42, R44, R45; `TWI_BASE` is the model's open constant,
assumption 9): the five registers at their addresses, everything else refused. -/
def Obligations.WindowAtPhysicalAddresses : Prop :=
  Config.twiBase % 4 = 0 ∧ Config.twiBase % 4096 + 0x18 ≤ 0x1000 ∧
  (∀ (s : State) (v : Word) (x : Reg),
    memRead (Config.twiBase + (regOffset x).toNat) 4 s = readReg x s ∧
    memWrite (Config.twiBase + (regOffset x).toNat) 4 v s = writeReg x v s) ∧
  ∀ (s : State) (v : Word) (a : Nat), (∀ x : Reg, a ≠ Config.twiBase + (regOffset x).toNat) →
    (a % 4 = 0 → memRead a 4 s = .refused .unmappedOffset ∧
      memWrite a 4 v s = .refused .unmappedOffset) ∧
    (a % 4 ≠ 0 → memRead a 4 s = .refused .misaligned ∧
      memWrite a 4 v s = .refused .misaligned)

/-- ADDR.LD and DOUT.LD return their registers in both phases (R83, R85). -/
def Obligations.AddrAndDoutReadBack : Prop :=
  ∀ s : State, s.ready = true →
    exec .addrLd s =
      .next { engineTurn s with tick := s.tick + 1, result := .word s.addr } ∧
    exec .doutLd s =
      .next { engineTurn s with tick := s.tick + 1, result := .word s.dout }

/-- CTRL.LD returns CTRL in both phases; bit 6 reads 1 exactly while PENDING; a stored word reads back
(R80). -/
def Obligations.CtrlReadsBack : Prop :=
  ∀ s : State, s.ready = true →
    exec .ctrlLd s =
      .next { engineTurn s with tick := s.tick + 1, result := .word (engineTurn s).ctrl } ∧
    (s.Inv → ((engineTurn s).ctrl.getLsbD 6 = true ↔ (engineTurn s).engine ≠ .idle)) ∧
    ∀ (v : Word) (t : State), ctrlStart v = false → exec (.ctrlSt v) s = .next t →
      exec .ctrlLd t = .next { t with tick := t.tick + 1, result := .word v }

/-- STATUS.LD returns CODE, DONE and ERR in their bits, zeros elsewhere, and clears nothing (R66, R91).
DONE goes from 0 to 1 between two reads, never back. -/
def Obligations.StatusReadsItsFields : Prop :=
  ∀ s : State, s.ready = true →
    ∃ w : Word,
      exec .statusLd s = .next { engineTurn s with tick := s.tick + 1, result := .word w } ∧
      w = ((engineTurn s).status.code.setWidth 32 <<< 8) |||
        ((BitVec.ofBool (engineTurn s).status.done).setWidth 32 <<< 1) |||
        (BitVec.ofBool (engineTurn s).status.err).setWidth 32 ∧
      w.extractLsb' 8 8 = (engineTurn s).status.code ∧
      w.getLsbD 1 = (engineTurn s).status.done ∧ w.getLsbD 0 = (engineTurn s).status.err ∧
      w.extractLsb' 16 16 = 0#16 ∧ w.extractLsb' 2 6 = 0#6 ∧
      (s.status.done = true → w.getLsbD 1 = true)

/-- DIN.LD (R21, R87): the low bytes of the last completed transaction are DIN's if it was a successful
read; every other bit is the free value `Config.dinDraw`, whatever it is; all bits are while a read is
pending, and after a completed write or failed read. That a write changes no bit of DIN and yet ends
the reading of its bytes is how the model lets R21 and R87 both hold (assumption 4). -/
def Obligations.DinReadsItsBytesAndDrawsTheRest : Prop :=
  ∀ s : State, s.ready = true →
    (∃ w : Word,
      exec .dinLd s = .next { engineTurn s with tick := s.tick + 1, result := .word w } ∧
      (∀ c : Latched, (engineTurn s).engine = .pending c → c.kind = .read →
        w = Config.dinDraw s.tick) ∧
      ((∀ c : Latched, (engineTurn s).engine = .pending c → c.kind = .write) →
        ∀ k, k < 4 → w.extractLsb' (8 * k) 8 =
          if k < (engineTurn s).dinBytes then (engineTurn s).din.extractLsb' (8 * k) 8
          else (Config.dinDraw s.tick).extractLsb' (8 * k) 8)) ∧
    ∀ (c : Latched) (w : WriteAnswer) (r : ReadAnswer),
      c.kind = .write ∨ failureCode c w r ≠ none →
      exec .dinLd (complete c w r s) = .next
        { complete c w r s with
          tick := s.tick + 1, result := .word (Config.dinDraw s.tick) } ∧
      (c.kind = .write → (complete c w r s).din = s.din)

/-- Reads while PENDING (R92), the engine holding: CTRL with START = 1, ADDR and DOUT as stored,
the flags and the CODE as they stand, DIN as in R87. -/
def Obligations.ReadsWhilePendingReturnTheRegisters : Prop :=
  ∀ (s : State) (c : Latched) (rest : List EnvMove), s.ready = true → s.Inv →
    s.engine = .pending c → s.env = .hold :: rest →
    s.ctrl.getLsbD 6 = true ∧
    exec .ctrlLd s = .next { s with env := rest, tick := s.tick + 1, result := .word s.ctrl } ∧
    exec .addrLd s = .next { s with env := rest, tick := s.tick + 1, result := .word s.addr } ∧
    exec .doutLd s = .next { s with env := rest, tick := s.tick + 1, result := .word s.dout } ∧
    exec .statusLd s = .next
      { s with env := rest, tick := s.tick + 1, result := .word (statusWord s.status) } ∧
    (c.kind = .read ∨ s.dinBytes = 0 → exec .dinLd s = .next
      { s with
        env := rest, tick := s.tick + 1, result := .word (Config.dinDraw s.tick) }) ∧
    (c.kind = .write → ∃ w,
      exec .dinLd s = .next { s with env := rest, tick := s.tick + 1, result := .word w } ∧
      ∀ k, k < s.dinBytes → w.extractLsb' (8 * k) 8 = s.din.extractLsb' (8 * k) 8)

/-- CTRL.ST, ADDR.ST and DOUT.ST replace their register and nothing else (R81, R84, R86), and fault
while PENDING. -/
def Obligations.PlainStoresReplaceTheirRegister : Prop :=
  ∀ (s : State) (v : Word), s.ready = true →
    ((engineTurn s).engine = .idle →
      (ctrlStart v = false → exec (.ctrlSt v) s = .next
        { engineTurn s with ctrl := v, tick := s.tick + 1, result := .nothing }) ∧
      exec (.addrSt v) s = .next
        { engineTurn s with addr := v, tick := s.tick + 1, result := .nothing } ∧
      exec (.doutSt v) s = .next
        { engineTurn s with dout := v, tick := s.tick + 1, result := .nothing }) ∧
    ((engineTurn s).engine ≠ .idle →
      exec (.ctrlSt v) s = .fault .writeWhilePending ∧
      exec (.addrSt v) s = .fault .writeWhilePending ∧
      exec (.doutSt v) s = .fault .writeWhilePending)

/-- STCLR clears ERR and DONE and keeps CODE; any other value is refused; while PENDING both fault
(R88). -/
def Obligations.StclrClearsTheFlagsOnly : Prop :=
  ∀ s : State, s.ready = true →
    ((engineTurn s).engine = .idle →
      exec .stclr s = .next
        { engineTurn s with
          status := { (engineTurn s).status with done := false, err := false },
          tick := s.tick + 1, result := .nothing } ∧
      ∀ v : Word, v ≠ 0x00000003#32 →
        issueCommand (wr32 .status v) s = .refused .statusValue) ∧
    ((engineTurn s).engine ≠ .idle →
      exec .stclr s = .fault .writeWhilePending ∧
      ∀ v : Word, issueCommand (wr32 .status v) s = .fault .writeWhilePending)

/-- A host write of DIN is refused (R89), by the port and by the accessors. -/
def Obligations.DinWriteIsRefused : Prop :=
  ∀ (s : State) (v : Word) (n : Int), s.ready = true → (engineTurn s).engine = .idle →
    0 ≤ n → n ≤ 31 →
    issueCommand (wr32 .din v) s = .refused .dinWrite ∧
    exec (.setb .din n) s = .refused .dinWrite ∧
    exec (.clrb .din n) s = .refused .dinWrite

/-- Any host write to any of the five registers while PENDING is the fault (R90): raw writes of any
value, and the six writing operations. -/
def Obligations.AnyWriteWhilePendingFaults : Prop :=
  ∀ (s : State) (c : Latched), s.ready = true → (engineTurn s).engine = .pending c →
    (∀ (x : Reg) (v : Word), issueCommand (wr32 x v) s = .fault .writeWhilePending) ∧
    (∀ v : Word,
      exec (.ctrlSt v) s = .fault .writeWhilePending ∧
      exec (.xferW v) s = .fault .writeWhilePending ∧
      exec (.xferR v) s = .fault .writeWhilePending ∧
      exec (.addrSt v) s = .fault .writeWhilePending ∧
      exec (.doutSt v) s = .fault .writeWhilePending) ∧
    exec .stclr s = .fault .writeWhilePending

/-- Everything that is no operation of the table ends without a next state (R70). -/
def Obligations.UndecodableCommandNeverRuns : Prop :=
  ∀ (c : Command) (r : Reject) (s t : State), decode c = .error r → issueCommand c s ≠ .next t

/-! ### The bus engine (spec/42_bus_engine.md) -/

/-- The conditions of a start (R113), in the order of R82, for every CTRL write with START = 1. -/
def Obligations.StartIsAcceptedOnlyIfEnabledAndClear : Prop :=
  ∀ (s : State) (v : Word), s.ready = true → v.getLsbD 6 = true →
    ((engineTurn s).engine ≠ .idle →
      issueCommand (wr32 .ctrl v) s = .fault .writeWhilePending) ∧
    ((engineTurn s).engine = .idle →
      (v.getLsbD 31 = false →
        issueCommand (wr32 .ctrl v) s = .refused .startWhileDisabled) ∧
      (v.getLsbD 31 = true → v.getLsbD 24 = true →
        issueCommand (wr32 .ctrl v) s = .refused .dswapSet) ∧
      (v.getLsbD 31 = true → v.getLsbD 24 = false → v.getLsbD 5 = true →
        issueCommand (wr32 .ctrl v) s = .refused .roSet) ∧
      (v.getLsbD 31 = true → v.getLsbD 24 = false → v.getLsbD 5 = false →
        ∃ t c, issueCommand (wr32 .ctrl v) s = .next t ∧ t.ctrl = v ∧ t.engine = .pending c))

/-- Acceptance (R114): what XFER.W and XFER.R capture and clear, and that ADDR and DOUT are sampled
then and not again. -/
def Obligations.AcceptanceLatchesTheCommand : Prop :=
  (∀ (s : State) (v : Word), s.ready = true → (engineTurn s).engine = .idle →
    ((Instr.xferW v).wellFormed = true →
      exec (.xferW v) s = .next
        { engineTurn s with
          ctrl := v,
          engine := .pending
            { kind := .write, n := (v.extractLsb' 2 2).toNat + 1, slave := s.addr,
              data := s.dout },
          status :=
            if s.cfg.startClearsFlags then
              { (engineTurn s).status with done := false, err := false }
            else (engineTurn s).status,
          tick := s.tick + 1, result := .nothing }) ∧
    ((Instr.xferR v).wellFormed = true →
      exec (.xferR v) s = .next
        { engineTurn s with
          ctrl := v,
          engine := .pending
            { kind := .read,
              n :=
                (match s.cfg.readLen with
                | .lsb0 => (v.extractLsb' 0 2).toNat + 1
                | .lsb2 => (v.extractLsb' 2 2).toNat + 1),
              slave := s.addr, data := s.dout },
          status :=
            if s.cfg.startClearsFlags then
              { (engineTurn s).status with done := false, err := false }
            else (engineTurn s).status,
          tick := s.tick + 1, result := .nothing })) ∧
  ∀ (c : Latched) (w : WriteAnswer) (r : ReadAnswer) (s : State) (a d : Word),
    complete c w r { s with addr := a, dout := d } =
      { complete c w r s with addr := a, dout := d }

/-- When (R117, R54): IDLE, nothing; PENDING, the environment's script decides; at its end the free
schedule does, and the bus is asked exactly the latched command's question (R112). -/
def Obligations.EngineCompletesAtAnyPointOrNever : Prop :=
  (∀ s : State, s.engine = .idle → engineTurn s = s) ∧
  (∀ (s : State) (c : Latched) (rest : List EnvMove), s.engine = .pending c →
    s.env = .hold :: rest → engineTurn s = { s with env := rest }) ∧
  (∀ (s : State) (c : Latched) (w : WriteAnswer) (r : ReadAnswer) (rest : List EnvMove),
    s.engine = .pending c → s.env = .move w r :: rest →
    engineTurn s = complete c w r { s with env := rest }) ∧
  ∀ (s : State) (c : Latched), s.engine = .pending c → s.env = [] →
    engineTurn s =
      if Config.engineMoves s.tick = true then
        complete c (Config.busWrite s.tick c.slave (busBytes c.data c.n))
          (Config.busRead s.tick c.slave c.n) s
      else s

/-- The completion step (R116), for the four answers of the bus. `Config.dinFill` is the free value of
the bits of DIN left unspecified. A write leaves DIN as it is; `dinBytes` counts the bytes of it that a
host read returns (R87, assumption 4). -/
def Obligations.CompletionWritesTheRegistersAtOnce : Prop :=
  ∀ (s : State) (c : Latched) (w : WriteAnswer) (r : ReadAnswer),
    (∀ j, j < 32 → (complete c w r s).ctrl.getLsbD j = (decide (j ≠ 6) && s.ctrl.getLsbD j)) ∧
    (c.kind = .write → w = .ack →
      complete c w r s =
        { s with
          ctrl := (complete c w r s).ctrl, engine := .idle, dinBytes := 0,
          status := { code := s.cfg.codeOk, done := true, err := false },
          bus := s.bus ++ [.write c.slave (busBytes c.data c.n)] }) ∧
    (∀ code, c.kind = .write → w = .err code →
      complete c w r s =
        { s with
          ctrl := (complete c w r s).ctrl, engine := .idle, dinBytes := 0,
          status :=
            { code := code, done := s.cfg.errorSetsDone || s.status.done, err := true },
          bus := s.bus ++ [.write c.slave (busBytes c.data c.n)] }) ∧
    (∀ b0 b1 b2 b3, c.kind = .read → r = .data b0 b1 b2 b3 →
      (∃ d : Word, complete c w r s =
        { s with
          ctrl := (complete c w r s).ctrl, engine := .idle,
          din := d, dinBytes := c.n,
          status := { code := s.cfg.codeOk, done := true, err := false },
          bus := s.bus ++ [.read c.slave c.n] } ∧
        ∀ k, k < 4 → d.extractLsb' (8 * k) 8 =
          if k < c.n then [b0, b1, b2, b3].getD k 0#8
          else (Config.dinFill s.tick).extractLsb' (8 * k) 8)) ∧
    (∀ code, c.kind = .read → r = .err code →
      complete c w r s =
        { s with
          ctrl := (complete c w r s).ctrl, engine := .idle,
          din := Config.dinFill s.tick, dinBytes := 0,
          status :=
            { code := code, done := s.cfg.errorSetsDone || s.status.done, err := true },
          bus := s.bus ++ [.read c.slave c.n] })

/-- Under a well-behaved environment (R120) a failure's class is one the cause can have (R119, R171). -/
def Obligations.WellBehavedBusGivesKnownClasses : Prop :=
  ∀ (c : Latched) (w : WriteAnswer) (r : ReadAnswer) (code : Byte),
    writeWellBehaved w = true → readWellBehaved r = true → failureCode c w r = some code →
    (c.kind = .write → decodeClass code ∈
      [ErrClass.addrWNack, ErrClass.dataNack, ErrClass.sdaStuck, ErrClass.sclStuck]) ∧
    (c.kind = .read → decodeClass code ∈
      [ErrClass.addrRNack, ErrClass.sdaStuck, ErrClass.sclStuck])

/-! ### The accessors (spec/41_bitfield_accessors.md) -/

/-- A bit index outside 0..31 is refused with no access; in range SETB and CLRB are exactly one read
and then one write, GETB one read, and no check of their own is added (R100, R101). -/
def Obligations.AccessorsAreOneReadAndAtMostOneWrite : Prop :=
  ∀ (s : State) (x : Reg) (n : Int), s.ready = true →
    (n < 0 ∨ 31 < n →
      exec (.setb x n) s = .refused .bitIndex ∧ exec (.clrb x n) s = .refused .bitIndex ∧
      exec (.getb x n) s = .refused .bitIndex) ∧
    (0 ≤ n → n ≤ 31 →
      exec (.setb x n) s = finish ((readReg x s).bind fun w t =>
        (writeReg x (w ||| (1#32 <<< n.toNat)) t).bind fun _ u => .ok .nothing u) ∧
      exec (.clrb x n) s = finish ((readReg x s).bind fun w t =>
        (writeReg x (w &&& ~~~(1#32 <<< n.toNat)) t).bind fun _ u => .ok .nothing u) ∧
      exec (.getb x n) s = finish ((readReg x s).bind fun w t =>
        .ok (.bit (w.getLsbD n.toNat)) t))

/-- SETB (R102) while IDLE, on each register: the stored bit, the trigger, the two refusals. -/
def Obligations.SetbSetsOneBit : Prop :=
  ∀ (s : State) (n : Int), s.ready = true → s.engine = .idle → 0 ≤ n → n ≤ 31 →
    exec (.setb .addr n) s = .next
      { s with addr := s.addr ||| (1#32 <<< n.toNat), tick := s.tick + 2, result := .nothing } ∧
    exec (.setb .dout n) s = .next
      { s with dout := s.dout ||| (1#32 <<< n.toNat), tick := s.tick + 2, result := .nothing } ∧
    (ctrlStart s.ctrl = false → n ≠ 6 →
      exec (.setb .ctrl n) s = .next
        { s with
          ctrl := s.ctrl ||| (1#32 <<< n.toNat), tick := s.tick + 2, result := .nothing }) ∧
    (ctrlEn s.ctrl = true → ctrlDswap s.ctrl = false → ctrlRo s.ctrl = false →
      exec (.setb .ctrl 6) s = .next
        { accept (s.ctrl ||| 0x00000040#32) s with tick := s.tick + 2, result := .nothing }) ∧
    exec (.setb .din n) s = .refused .dinWrite ∧
    (statusWord s.status ||| (1#32 <<< n.toNat) = 0x00000003#32 →
      exec (.setb .status n) s = .next
        { s with
          status := { s.status with done := false, err := false },
          tick := s.tick + 2, result := .nothing }) ∧
    (statusWord s.status ||| (1#32 <<< n.toNat) ≠ 0x00000003#32 →
      exec (.setb .status n) s = .refused .statusValue)

/-- CLRB (R103) while IDLE, on each register. -/
def Obligations.ClrbClearsOneBit : Prop :=
  ∀ (s : State) (n : Int), s.ready = true → s.engine = .idle → 0 ≤ n → n ≤ 31 →
    exec (.clrb .addr n) s = .next
      { s with
        addr := s.addr &&& ~~~(1#32 <<< n.toNat), tick := s.tick + 2, result := .nothing } ∧
    exec (.clrb .dout n) s = .next
      { s with
        dout := s.dout &&& ~~~(1#32 <<< n.toNat), tick := s.tick + 2, result := .nothing } ∧
    (ctrlStart s.ctrl = false →
      exec (.clrb .ctrl n) s = .next
        { s with
          ctrl := s.ctrl &&& ~~~(1#32 <<< n.toNat), tick := s.tick + 2, result := .nothing }) ∧
    exec (.clrb .din n) s = .refused .dinWrite ∧
    (statusWord s.status &&& ~~~(1#32 <<< n.toNat) = 0x00000003#32 →
      exec (.clrb .status n) s = .next
        { s with
          status := { s.status with done := false, err := false },
          tick := s.tick + 2, result := .nothing }) ∧
    (statusWord s.status &&& ~~~(1#32 <<< n.toNat) ≠ 0x00000003#32 →
      exec (.clrb .status n) s = .refused .statusValue)

/-- GETB (R104) returns the bit of the word read, in both phases, on all five registers; on STATUS
only bits 0, 1 and 8 to 15 can be 1. -/
def Obligations.GetbReturnsOneBit : Prop :=
  ∀ (s : State) (x : Reg) (n : Int), s.ready = true → 0 ≤ n → n ≤ 31 →
    (∃ b : Bool,
      exec (.getb x n) s = .next { engineTurn s with tick := s.tick + 1, result := .bit b } ∧
      (if b then 1#32 else 0#32) =
        (readValue x (engineTurn s) >>> n.toNat) &&& 1#32) ∧
    exec (.getb .status 1) s = .next
      { engineTurn s with tick := s.tick + 1, result := .bit (engineTurn s).status.done } ∧
    exec (.getb .status 0) s = .next
      { engineTurn s with tick := s.tick + 1, result := .bit (engineTurn s).status.err } ∧
    (n ≠ 0 → n ≠ 1 → n < 8 ∨ 15 < n →
      exec (.getb .status n) s = .next
        { engineTurn s with tick := s.tick + 1, result := .bit false })

/-- The laws of R105: the bits of the words; on ADDR, DOUT, and CTRL while IDLE with bit 6 not
involved, what a GETB returns after a SETB or a CLRB, and equal next states for either order and for
a repetition (but for the count of accesses); on STATUS and across a completion they do not hold. They rest on the spec's decisions D3 (START clears),
D13 (STATUS), D14, D15 (read-back) and D28 (accesses), assumption 7. -/
def Obligations.AccessorLawsOnStorage : Prop :=
  (∀ (w : Word) (n : Nat), n < 32 →
    setBitOf w n = w ||| (1#32 <<< n) ∧ clearBitOf w n = w &&& ~~~(1#32 <<< n) ∧
    getBitOf w n = w.getLsbD n ∧
    ∀ j, j < 32 →
      (setBitOf w n).getLsbD j = (decide (j = n) || w.getLsbD j) ∧
      (clearBitOf w n).getLsbD j = (!decide (j = n) && w.getLsbD j)) ∧
  1#32 <<< 31 = 0x80000000#32 ∧
  (∀ (s : State) (x : Reg) (m n : Int), s.ready = true → s.engine = .idle →
    x = .addr ∨ x = .dout ∨ (x = .ctrl ∧ ctrlStart s.ctrl = false ∧ m ≠ 6 ∧ n ≠ 6) →
    0 ≤ m → m ≤ 31 → 0 ≤ n → n ≤ 31 →
    (∃ t, exec (.setb x n) s = .next t ∧
      exec (.getb x n) t = .next { t with tick := t.tick + 1, result := .bit true } ∧
      exec (.setb x n) t = .next { t with tick := t.tick + 2 }) ∧
    (∃ t, exec (.clrb x n) s = .next t ∧
      exec (.getb x n) t = .next { t with tick := t.tick + 1, result := .bit false } ∧
      exec (.clrb x n) t = .next { t with tick := t.tick + 2 }) ∧
    (m ≠ n →
      (∃ t t' u, exec (.setb x m) s = .next t ∧ exec (.clrb x n) t = .next u ∧
        exec (.clrb x n) s = .next t' ∧ exec (.setb x m) t' = .next u) ∧
      (∃ t t' u, exec (.setb x m) s = .next t ∧ exec (.setb x n) t = .next u ∧
        exec (.setb x n) s = .next t' ∧ exec (.setb x m) t' = .next u) ∧
      ∃ t t' u, exec (.clrb x m) s = .next t ∧ exec (.clrb x n) t = .next u ∧
        exec (.clrb x n) s = .next t' ∧ exec (.clrb x m) t' = .next u)) ∧
  (∀ (s : State) (n : Int), s.ready = true → s.engine = .idle → 1 < n → n ≤ 31 →
    exec (.setb .status n) s = .refused .statusValue) ∧
  ∀ (s : State) (w : WriteAnswer) (r : ReadAnswer) (rest : List EnvMove), s.ready = true →
    s.enabledIdle = true → ctrlRo s.ctrl = false → s.env = .move w r :: rest →
    ∃ t u, exec (.setb .ctrl 6) s = .next t ∧ exec (.getb .ctrl 6) t = .next u ∧
      u.result = .bit false

/-- The read-modify-write hazard on CTRL while PENDING (R197): with the completion between the read
and the write, the word written has START = 1 as read, and is a new trigger with the old parameters
(the changed bit apart; setting RO or DSWAP or clearing EN makes it a start that is refused, clearing
START no start); with no completion the write faults. -/
def Obligations.ReadModifyWriteAcrossCompletionRetriggers : Prop :=
  ∀ (s : State) (c : Latched) (w : WriteAnswer) (r : ReadAnswer) (rest : List EnvMove) (n : Int),
    s.ready = true → s.Inv → s.engine = .pending c → 0 ≤ n → n ≤ 31 →
    (s.env = .hold :: .move w r :: rest →
      (n ≠ 5 → n ≠ 24 → ∃ t, exec (.setb .ctrl n) s = .next t ∧
        t.ctrl = s.ctrl ||| (1#32 <<< n.toNat) ∧ t.ctrl.getLsbD 6 = true ∧
        t.engine = .pending (latch s.cfg.readLen t.ctrl s.addr s.dout) ∧
        t.bus = s.bus ++ [busQuestion c]) ∧
      (n = 5 → exec (.setb .ctrl n) s = .refused .roSet) ∧
      (n = 24 → exec (.setb .ctrl n) s = .refused .dswapSet) ∧
      (n ≠ 6 → n ≠ 31 → ∃ t, exec (.clrb .ctrl n) s = .next t ∧
        t.ctrl = s.ctrl &&& ~~~(1#32 <<< n.toNat) ∧ t.ctrl.getLsbD 6 = true ∧
        t.engine = .pending (latch s.cfg.readLen t.ctrl s.addr s.dout) ∧
        t.bus = s.bus ++ [busQuestion c]) ∧
      (n = 31 → exec (.clrb .ctrl n) s = .refused .startWhileDisabled) ∧
      (n = 6 → ∃ t, exec (.clrb .ctrl n) s = .next t ∧
        t.ctrl = s.ctrl &&& 0xFFFFFFBF#32 ∧ t.engine = .idle ∧
        t.bus = s.bus ++ [busQuestion c])) ∧
    (s.env = .hold :: .hold :: rest →
      exec (.setb .ctrl n) s = .fault .writeWhilePending ∧
      exec (.clrb .ctrl n) s = .fault .writeWhilePending)

/-! ### The sequencer (spec/43_sequencer.md) -/

/-- TWI.ENABLE (R141) from the start-of-run premise: EN set, DSWAP cleared, the flags cleared, five
accesses; while PENDING its first write faults. -/
def Obligations.EnableSetsEnClearsDswapAndFlags : Prop :=
  ∀ s : State, s.seq = .uninitialized →
    (s.cleanStart = true →
      exec .twiEnable s = .next
        { s with
          ctrl := (s.ctrl ||| 0x80000000#32) &&& 0xFEFFFFFF#32,
          status := { s.status with done := false, err := false },
          seq := .enabled, stepIdx := 5, tick := s.tick + 5, result := .nothing }) ∧
    (∀ (c : Latched) (rest : List EnvMove), s.engine = .pending c →
      s.env = .hold :: .hold :: rest → exec .twiEnable s = .fault .writeWhilePending)

/-- Commands in the wrong state and bad lengths (R147). -/
def Obligations.CommandsInTheWrongStateAreRefused : Prop :=
  ∀ s : State,
    (s.seq = .uninitialized → ∀ (slave : Word) (len : Int) (data : Word),
      exec (.twiWrite slave len data) s = .refused .notEnabled ∧
      exec (.twiRead slave len) s = .refused .notEnabled) ∧
    (s.seq = .enabled ∨ s.seq = .done → exec .twiEnable s = .refused .alreadyEnabled) ∧
    (s.seq = .error ∨ s.seq = .timeout → ∀ i : Instr, exec i s = .refused .halted) ∧
    (s.seq = .writePending ∨ s.seq = .readPending → ∀ (i : Instr) (t : State),
      exec i s ≠ .next t) ∧
    (s.seq = .enabled ∨ s.seq = .done → ∀ (slave : Word) (len : Int) (data : Word),
      len < 1 ∨ 4 < len →
      exec (.twiWrite slave len data) s = .refused .length ∧
      exec (.twiRead slave len) s = .refused .length)

/-- TWI.WRITE that succeeds at its poll `k + 1` (R142, R144, R145): the word left in CTRL, the registers
written, the bytes sent, the counts of R149, and nothing else changed; a read of DIN then returns none of its
bytes (R87). -/
def Obligations.WriteThatSucceeds : Prop :=
  ∀ (s : State) (slave data : Word) (len : Int) (k : Nat) (r : ReadAnswer) (rest : List EnvMove),
    s.transferReady = true → s.enabledIdle = true → s.cfg.startClearsFlags = true →
    1 ≤ len → len ≤ 4 → k < s.cfg.pollBound →
    s.env = List.replicate k .hold ++ .move .ack r :: rest →
    exec (.twiWrite slave len data) s = .next
      { s with
        ctrl := (((s.ctrl &&& 0xFFFFFFF3#32) ||| (BitVec.ofInt 32 (len - 1) <<< 2)) &&&
          0xFFFFFFDF#32) ||| 0x00000010#32,
        addr := slave, dout := data, dinBytes := 0,
        status := { code := s.cfg.codeOk, done := true, err := false },
        seq := .done, stepIdx := 10 + (k + 1) + 1, polls := k + 1,
        result := .nothing, env := rest, tick := s.tick + (10 + (k + 1) + 1),
        bus := s.bus ++ [.write slave (busBytes data len.toNat)] }

/-- TWI.WRITE whose transaction fails (R145, R174): the code recorded and decoded, the flags left set,
exit code 1. -/
def Obligations.WriteThatFails : Prop :=
  ∀ (s : State) (slave data : Word) (len : Int) (k : Nat) (code : Byte) (r : ReadAnswer)
    (rest : List EnvMove),
    s.transferReady = true → s.enabledIdle = true → s.cfg.startClearsFlags = true →
    s.cfg.errorSetsDone = true → 1 ≤ len → len ≤ 4 → k < s.cfg.pollBound →
    s.env = List.replicate k .hold ++ .move (.err code) r :: rest →
    exec (.twiWrite slave len data) s = .next
      { s with
        ctrl := (((s.ctrl &&& 0xFFFFFFF3#32) ||| (BitVec.ofInt 32 (len - 1) <<< 2)) &&&
          0xFFFFFFDF#32) ||| 0x00000010#32,
        addr := slave, dout := data, dinBytes := 0,
        status := { code := code, done := true, err := true },
        seq := .error, halt := true, exitCode := .error,
        errCode := code, errClass := decodeClass code,
        stepIdx := 10 + (k + 1) + 2, polls := k + 1,
        result := .nothing, env := rest, tick := s.tick + (10 + (k + 1) + 2),
        bus := s.bus ++ [.write slave (busBytes data len.toNat)] }

/-- TWI.WRITE whose transaction never completes (R144, R174): exactly `POLL_BOUND` polls, exit code 3,
the block left PENDING with START = 1. -/
def Obligations.WriteThatTimesOut : Prop :=
  ∀ (s : State) (slave data : Word) (len : Int) (rest : List EnvMove),
    s.transferReady = true → s.enabledIdle = true → s.cfg.startClearsFlags = true →
    0 < s.cfg.pollBound → 1 ≤ len → len ≤ 4 →
    s.env = List.replicate s.cfg.pollBound .hold ++ rest →
    exec (.twiWrite slave len data) s = .next
      { s with
        ctrl := (((s.ctrl &&& 0xFFFFFFF3#32) ||| (BitVec.ofInt 32 (len - 1) <<< 2)) &&&
          0xFFFFFFDF#32) ||| 0x00000050#32,
        addr := slave, dout := data,
        status := { s.status with done := false, err := false },
        engine := .pending { kind := .write, n := len.toNat, slave := slave, data := data },
        seq := .timeout, halt := true, exitCode := .timeout,
        stepIdx := 10 + s.cfg.pollBound, polls := s.cfg.pollBound,
        result := .nothing, env := rest, tick := s.tick + (10 + s.cfg.pollBound) }

/-- TWI.READ that succeeds at its poll `k + 1` (R143): the whole of DIN returned, its low `length` bytes
those of the bus, in lane order. Its other bytes are no zeros of a mask but free values: those a
completion leaves in DIN (`Config.dinFill`), and those the read of DIN draws (`Config.dinDraw`). -/
def Obligations.ReadThatSucceeds : Prop :=
  ∀ (s : State) (slave : Word) (len : Int) (k : Nat) (w : WriteAnswer) (b0 b1 b2 b3 : Byte)
    (rest : List EnvMove),
    s.transferReady = true → s.enabledIdle = true → s.cfg.startClearsFlags = true →
    1 ≤ len → len ≤ 4 → k < s.cfg.pollBound →
    s.env = List.replicate k .hold ++ .move w (.data b0 b1 b2 b3) :: rest →
    ∃ d v : Word,
      exec (.twiRead slave len) s = .next
        { s with
          ctrl := (match s.cfg.readLen with
            | .lsb0 => (s.ctrl &&& 0xFFFFFFFC#32) ||| BitVec.ofInt 32 (len - 1)
            | .lsb2 => (s.ctrl &&& 0xFFFFFFF3#32) ||| (BitVec.ofInt 32 (len - 1) <<< 2)) &&&
              0xFFFFFFCF#32,
          addr := slave, din := d, dinBytes := len.toNat,
          status := { code := s.cfg.codeOk, done := true, err := false },
          seq := .done, value := v, stepIdx := 9 + (k + 1) + 2, polls := k + 1,
          result := .word v, env := rest, tick := s.tick + (9 + (k + 1) + 2),
          bus := s.bus ++ [.read slave len.toNat] } ∧
      ∀ j, j < 4 →
        (v.extractLsb' (8 * j) 8 =
          if j < len.toNat then [b0, b1, b2, b3].getD j 0#8
          else (Config.dinDraw (s.tick + (9 + (k + 1) + 1))).extractLsb' (8 * j) 8) ∧
        d.extractLsb' (8 * j) 8 =
          if j < len.toNat then [b0, b1, b2, b3].getD j 0#8
          else (Config.dinFill (s.tick + (9 + k))).extractLsb' (8 * j) 8

/-- TWI.READ whose transaction fails (R143, R145, R174): no value is returned or recorded, and DIN is
unspecified, a free value. -/
def Obligations.ReadThatFails : Prop :=
  ∀ (s : State) (slave : Word) (len : Int) (k : Nat) (code : Byte) (w : WriteAnswer)
    (rest : List EnvMove),
    s.transferReady = true → s.enabledIdle = true → s.cfg.startClearsFlags = true →
    s.cfg.errorSetsDone = true → 1 ≤ len → len ≤ 4 → k < s.cfg.pollBound →
    s.env = List.replicate k .hold ++ .move w (.err code) :: rest →
    exec (.twiRead slave len) s = .next
      { s with
        ctrl := (match s.cfg.readLen with
            | .lsb0 => (s.ctrl &&& 0xFFFFFFFC#32) ||| BitVec.ofInt 32 (len - 1)
            | .lsb2 => (s.ctrl &&& 0xFFFFFFF3#32) ||| (BitVec.ofInt 32 (len - 1) <<< 2)) &&&
              0xFFFFFFCF#32,
        addr := slave, din := Config.dinFill (s.tick + (9 + k)), dinBytes := 0,
        status := { code := code, done := true, err := true },
        seq := .error, halt := true, exitCode := .error,
        errCode := code, errClass := decodeClass code,
        stepIdx := 9 + (k + 1) + 2, polls := k + 1,
        result := .nothing, env := rest, tick := s.tick + (9 + (k + 1) + 2),
        bus := s.bus ++ [.read slave len.toNat] }

/-- TWI.READ whose transaction never completes (R144, R174): exactly `POLL_BOUND` polls, exit code 3,
no value, the block left PENDING with START = 1. -/
def Obligations.ReadThatTimesOut : Prop :=
  ∀ (s : State) (slave : Word) (len : Int) (rest : List EnvMove),
    s.transferReady = true → s.enabledIdle = true → s.cfg.startClearsFlags = true →
    0 < s.cfg.pollBound → 1 ≤ len → len ≤ 4 →
    s.env = List.replicate s.cfg.pollBound .hold ++ rest →
    exec (.twiRead slave len) s = .next
      { s with
        ctrl := ((match s.cfg.readLen with
              | .lsb0 => (s.ctrl &&& 0xFFFFFFFC#32) ||| BitVec.ofInt 32 (len - 1)
              | .lsb2 => (s.ctrl &&& 0xFFFFFFF3#32) ||| (BitVec.ofInt 32 (len - 1) <<< 2)) &&&
                0xFFFFFFCF#32) ||| 0x00000040#32,
        addr := slave,
        status := { s.status with done := false, err := false },
        engine := .pending { kind := .read, n := len.toNat, slave := slave, data := s.dout },
        seq := .timeout, halt := true, exitCode := .timeout,
        stepIdx := 9 + s.cfg.pollBound, polls := s.cfg.pollBound,
        result := .nothing, env := rest, tick := s.tick + (9 + s.cfg.pollBound) }

/-- Whatever the environment does, TWI.WRITE and TWI.READ end in exactly one of three ways, in at most
`POLL_BOUND` polls (R148, R144). -/
def Obligations.TransfersEndInOneOfThreeWays : Prop :=
  ∀ (s : State) (i : Instr) (slave data : Word) (len : Int),
    s.transferReady = true → s.enabledIdle = true → s.halt = false → 0 < s.cfg.pollBound →
    1 ≤ len → len ≤ 4 →
    i = .twiWrite slave len data ∨ i = .twiRead slave len →
    ∃ t, exec i s = .next t ∧ t.polls ≤ s.cfg.pollBound ∧
      ((t.seq = .done ∧ t.halt = false ∧ (i = .twiRead slave len → t.result = .word t.value)) ∨
       (t.seq = .error ∧ t.halt = true ∧ t.exitCode = .error ∧ t.result = .nothing ∧
          t.errClass = decodeClass t.errCode) ∨
       (t.seq = .timeout ∧ t.halt = true ∧ t.exitCode = .timeout ∧ t.result = .nothing ∧
          t.polls = s.cfg.pollBound ∧ t.errCode = s.errCode ∧ t.errClass = s.errClass))

/-- The bounded wait (R144) as TWI.POLL on its own: a done flag seen at poll `k + 1` counts as done, also
at the last; a flag never set gives exactly `POLL_BOUND` reads and the timeout. That `seq` is left as
it was is the model's choice (assumption 18). -/
def Obligations.PollWaitsForDoneUpToTheBound : Prop :=
  ∀ s : State, s.ready = true → s.status.done = false → 0 < s.cfg.pollBound →
    (∀ (c : Latched) (k : Nat) (w : WriteAnswer) (r : ReadAnswer) (rest : List EnvMove),
      s.engine = .pending c → k < s.cfg.pollBound → failureCode c w r = none →
      s.env = List.replicate k .hold ++ .move w r :: rest →
      exec .twiPoll s = .next
        { complete c w r { s with env := rest, tick := s.tick + k } with
          stepIdx := (k + 1) + 1, polls := k + 1, tick := s.tick + ((k + 1) + 1),
          result := .done }) ∧
    (∀ (c : Latched) (rest : List EnvMove), s.engine = .pending c →
      s.env = List.replicate s.cfg.pollBound .hold ++ rest →
      exec .twiPoll s = .next
        { s with
          stepIdx := s.cfg.pollBound, polls := s.cfg.pollBound,
          tick := s.tick + s.cfg.pollBound, env := rest,
          seq := .timeout, exitCode := .timeout, halt := true, result := .nothing }) ∧
    (s.engine = .idle →
      exec .twiPoll s = .next
        { s with
          stepIdx := s.cfg.pollBound, polls := s.cfg.pollBound,
          tick := s.tick + s.cfg.pollBound,
          seq := .timeout, exitCode := .timeout, halt := true, result := .nothing })

/-- The error check (R145), the done flag being set: ERR = 0 is done after one more read, ERR = 1 reads
the code, decodes it and halts; neither flag is cleared. -/
def Obligations.ErrorFlagEndsTheRun : Prop :=
  ∀ s : State, s.ready = true → s.engine = .idle → s.status.done = true →
    0 < s.cfg.pollBound →
    (s.status.err = false →
      exec .twiPoll s = .next
        { s with stepIdx := 2, polls := 1, tick := s.tick + 2, result := .done }) ∧
    (s.status.err = true →
      exec .twiPoll s = .next
        { s with
          stepIdx := 3, polls := 1, tick := s.tick + 3,
          errCode := s.status.code, errClass := decodeClass s.status.code,
          seq := .error, exitCode := .error, halt := true, result := .nothing })

/-- TWI.DECODE and the error table (R68, R146): total on all codes, reading and writing no register. How
a number is rendered in the last message is open (assumption 10). -/
def Obligations.DecodeIsTotal : Prop :=
  (∀ (s : State) (code : Byte), s.ready = true →
    exec (.twiDecode code) s = .next { s with result := .errClass (decodeClass code) }) ∧
  decodeClass 0x20#8 = .addrWNack ∧
  classMessage .addrWNack = "address+write transmitted, slave NACK" ∧
  decodeClass 0x30#8 = .dataNack ∧
  classMessage .dataNack = "data byte transmitted, NACK" ∧
  decodeClass 0x48#8 = .addrRNack ∧
  classMessage .addrRNack = "address+read transmitted, NACK" ∧
  decodeClass 0x70#8 = .sdaStuck ∧
  classMessage .sdaStuck = "bus error, data line stuck low" ∧
  decodeClass 0x90#8 = .sclStuck ∧
  classMessage .sclStuck = "bus error, clock line stuck low" ∧
  decodeClass 0xFF#8 = .noError ∧ classMessage .noError = "no error" ∧
  ∀ code : Byte, code ∉ [0x20#8, 0x30#8, 0x48#8, 0x70#8, 0x90#8, 0xFF#8] →
    decodeClass code = .unknown code ∧
    classMessage (.unknown code) = "unknown error " ++ Config.unknownCodeText code

/-- Round trip (R49), for every length and every value: against a slave that returns the bytes it
received, in their order, a write and then a read of equal length leave the low `8 * length` bits of
`d` in DIN, and TWI.READ returns them. The transactions complete at polls `k + 1` and `m + 1`. The premise `START_CLEARS_FLAGS` (the spec's
decision D2, assumption 7) keeps a stale DONE from ending a poll first. -/
def Obligations.WriteThenReadRoundTrips : Prop :=
  ∀ (s : State) (a d : Word) (len : Int) (k m : Nat) (w : WriteAnswer) (r : ReadAnswer)
    (b0 b1 b2 b3 : Byte) (rest : List EnvMove),
    s.transferReady = true → s.enabledIdle = true → s.cfg.startClearsFlags = true →
    k < s.cfg.pollBound → m < s.cfg.pollBound → 1 ≤ len → len ≤ 4 →
    [b0, b1, b2, b3].take len.toNat = busBytes d len.toNat →
    s.env = List.replicate k .hold ++ .move .ack r ::
      (List.replicate m .hold ++ .move w (.data b0 b1 b2 b3) :: rest) →
    ∃ t u, exec (.twiWrite a len d) s = .next t ∧ exec (.twiRead a len) t = .next u ∧
      u.seq = .done ∧ u.bus = s.bus ++ [.write a (busBytes d len.toNat), .read a len.toNat] ∧
      u.dinBytes = len.toNat ∧ u.result = .word u.value ∧
      ∀ j : Nat, j < 8 * len.toNat →
        u.din.getLsbD j = d.getLsbD j ∧ u.value.getLsbD j = d.getLsbD j

/-- With `ERROR_SETS_DONE` = false a failed write ends in the timeout, its code never decoded (R118). -/
def Obligations.ErrorWithoutDoneTimesOut : Prop :=
  ∀ (s : State) (slave data : Word) (len : Int) (k : Nat) (code : Byte) (r : ReadAnswer)
    (rest : List EnvMove),
    s.transferReady = true → s.enabledIdle = true → s.cfg.startClearsFlags = true →
    s.cfg.errorSetsDone = false → 1 ≤ len → len ≤ 4 → k < s.cfg.pollBound →
    s.env = List.replicate k .hold ++ .move (.err code) r :: rest →
    exec (.twiWrite slave len data) s = .next
      { s with
        ctrl := (((s.ctrl &&& 0xFFFFFFF3#32) ||| (BitVec.ofInt 32 (len - 1) <<< 2)) &&&
          0xFFFFFFDF#32) ||| 0x00000010#32,
        addr := slave, dout := data, dinBytes := 0,
        status := { code := code, done := false, err := true },
        seq := .timeout, halt := true, exitCode := .timeout,
        stepIdx := 10 + s.cfg.pollBound, polls := s.cfg.pollBound,
        result := .nothing, env := rest, tick := s.tick + (10 + s.cfg.pollBound),
        bus := s.bus ++ [.write slave (busBytes data len.toNat)] }

/-- With `START_CLEARS_FLAGS` = false a stale done flag ends the next read's poll at once, the
transaction still pending; the value returned is a free value (R115, R201). -/
def Obligations.StaleDoneEndsThePollAtOnce : Prop :=
  ∀ (s : State) (slave : Word) (len : Int) (rest : List EnvMove),
    s.transferReady = true → s.enabledIdle = true → s.cfg.startClearsFlags = false →
    s.status.done = true → s.status.err = false → 0 < s.cfg.pollBound →
    1 ≤ len → len ≤ 4 → s.env = .hold :: .hold :: .hold :: rest →
    exec (.twiRead slave len) s = .next
      { s with
        ctrl := ((match s.cfg.readLen with
            | .lsb0 => (s.ctrl &&& 0xFFFFFFFC#32) ||| BitVec.ofInt 32 (len - 1)
            | .lsb2 => (s.ctrl &&& 0xFFFFFFF3#32) ||| (BitVec.ofInt 32 (len - 1) <<< 2)) &&&
              0xFFFFFFCF#32) ||| 0x00000040#32,
        addr := slave,
        engine := .pending { kind := .read, n := len.toNat, slave := slave, data := s.dout },
        seq := .done, value := Config.dinDraw (s.tick + 11), stepIdx := 12, polls := 1,
        result := .word (Config.dinDraw (s.tick + 11)), env := rest, tick := s.tick + 12 }

/-- No register-port operation and no accessor touches the sequencer's state (P7 of
section 4 of spec/95_test_vectors.md), nor the model's own fields for the host's list (assumption 13)
and the parameters (assumption 8). -/
def Obligations.PortAndAccessorsLeaveTheSequencer : Prop :=
  ∀ (i : Instr) (s t : State), isPortOrAccessor i = true → exec i s = .next t →
    sameSequencer s t ∧ t.program = s.program ∧ t.cfg = s.cfg

/-! ### Fatal outcomes, reset and runs (spec/60_exceptions.md, spec/70_reset_and_hazards.md) -/

/-- The fatal halt (R174): what it writes, and that it writes no register of the block; the exit codes
as bits (R74). -/
def Obligations.FatalHaltWritesOnlyItsOutputs : Prop :=
  (∀ s : State, raiseFatal .timeout s =
    { s with seq := .timeout, exitCode := .timeout, halt := true }) ∧
  (∀ (s : State) (code : Byte), raiseFatal (.protocolError code) s =
    { s with
      errCode := code, errClass := decodeClass code,
      seq := .error, exitCode := .error, halt := true }) ∧
  exitBits .ok = 0#2 ∧ exitBits .error = 1#2 ∧ exitBits .timeout = 3#2 ∧
  ∀ e : ExitCode, exitBits e ≠ 2#2

/-- ERROR and TIMEOUT are absorbing (R175): from a halted state every step but a new process leaves the
whole sequencer as it is. -/
def Obligations.FatalStatesAreAbsorbing : Prop :=
  ∀ s t : State, s.Inv → s.halt = true → (∀ rest, s.program ≠ .newRun :: rest) →
    step s = .next t → sameSequencer s t

/-- What hardware reset leaves (R31), for every value of the parameters: the values the spec gives. -/
def Obligations.ResetLeavesTheBlockIdleAndDisabled : Prop :=
  ∀ p : Params,
    (State.resetWith p).ctrl = 0x00000000#32 ∧ (State.resetWith p).addr = 0x00000000#32 ∧
    (State.resetWith p).dout = 0x00000000#32 ∧ (State.resetWith p).dinBytes = 0 ∧
    (State.resetWith p).status.err = false ∧ (State.resetWith p).status.done = false ∧
    (State.resetWith p).status.code = p.resetCode ∧
    statusWord (State.resetWith p).status = p.resetCode.setWidth 32 <<< 8 ∧
    (State.resetWith p).engine = .idle ∧ (State.resetWith p).seq = .uninitialized ∧
    (State.resetWith p).stepIdx = 0 ∧ (State.resetWith p).polls = 0 ∧
    (State.resetWith p).halt = false ∧ State.reset = State.resetWith Config.defaults

/-- A new process (R191) makes the sequencer's state anew and keeps the register block. -/
def Obligations.NewProcessResetsTheSequencerOnly : Prop :=
  ∀ (s : State) (rest : List HostEvent), s.program = .newRun :: rest →
    ∃ t, step s = .next t ∧
      t.seq = .uninitialized ∧ t.stepIdx = 0 ∧ t.polls = 0 ∧ t.halt = false ∧
      t.ctrl = s.ctrl ∧ t.addr = s.addr ∧ t.dout = s.dout ∧ t.din = s.din ∧
      t.dinBytes = s.dinBytes ∧ t.status = s.status ∧ t.engine = s.engine ∧
      t.program = rest ∧ t.cfg = s.cfg

/-- A step runs the decoded instruction: the event is taken off the list, and after a fatal end the
process's remaining commands are dropped (assumption 13). -/
def Obligations.StepRunsTheDecodedInstruction : Prop :=
  (∀ (s : State) (c : Command) (i : Instr) (rest : List HostEvent),
    s.program = .issue c :: rest → decode c = .ok i →
    step s = endOfCommand (exec i { s with program := rest })) ∧
  (∀ (s : State) (i : Instr) (rest : List HostEvent), s.program = .call i :: rest →
    step s = endOfCommand (exec i { s with program := rest })) ∧
  (∀ (s : State) (i : Instr) (nbits w : Nat), decodeTableWord nbits w = some i →
    step (s.withFetchWord nbits w) = endOfCommand (exec i s)) ∧
  (∀ t : State, t.halt = false → endOfCommand (.next t) = .next t) ∧
  (∀ t : State, t.halt = true →
    endOfCommand (.next t) = .next { t with program := dropToNewRun t.program }) ∧
  (∀ f, endOfCommand (.fault f) = .fault f) ∧ ∀ r, endOfCommand (.refused r) = .refused r

/-- Without a host access the block does nothing (R190, R203); only the engine may complete. -/
def Obligations.WithoutAccessOnlyTheEngineMoves : Prop :=
  (∀ s : State, s.program = [] → step s = .next { engineTurn s with tick := s.tick + 1 }) ∧
  (∀ (s : State) (rest : List HostEvent), s.program = .wait :: rest →
    step s = .next { engineTurn { s with program := rest } with tick := s.tick + 1 }) ∧
  step State.reset = .next { State.reset with tick := 1 }

/-- At a fatal end the process's remaining commands are never executed (R188). -/
def Obligations.FatalEndDropsTheRemainingCommands : Prop :=
  ∀ (s t : State) (e : HostEvent) (rest : List HostEvent), s.program = e :: rest →
    s.halt = false → step s = .next t → t.halt = true →
    t.listOver = true ∧ t.fatalEnd = true ∧ ∃ pre, rest = pre ++ t.program

/-! ### Invariants -/

/-- The invariant holds at reset. -/
def Obligations.InvariantAtReset : Prop := ∀ p : Params, (State.resetWith p).Inv

/-- Every step keeps the invariant (R16, R22, R30, R174); at a `POLL_BOUND` of 0 its clause on `polls` holds by
assumption 8. -/
def Obligations.EveryStepKeepsTheInvariant : Prop :=
  ∀ s t : State, s.Inv → step s = .next t → t.Inv

/-- START reads 1 if and only if the engine is PENDING, from reset onward in every run that is neither
refused nor faulted, whatever the host issues and the environment does (R16). -/
def Obligations.StartIsOneExactlyWhilePending : Prop :=
  ∀ (p : Params) (program : List HostEvent) (env : List EnvMove) (k : Nat) (t : State),
    core.run k { State.resetWith p with program := program, env := env } = .next t →
    (t.ctrl.getLsbD 6 = true ↔ t.engine ≠ .idle)

/-- No step changes the parameters, which are fixed for a run (R5, R71). -/
def Obligations.NoStepChangesTheParameters : Prop :=
  ∀ s t : State, step s = .next t → t.cfg = s.cfg
end

