-- ==== Sys2Proof/Laws/Bits.lean ====
section
/-! SUPPORT. The bits of the words the accessors and the length fields make (spec/41_bitfield_accessors.md
R105, spec/30_encoding.md R65), and the byte lanes (spec/20_memory.md R47). -/

namespace Sys2Proof.Machine

theorem bitMask_bit {n : Nat} (hn : n < 32) (j : Nat) :
    (bitMask n).getLsbD j = decide (j = n) := by
  unfold bitMask
  rcases Nat.lt_trichotomy j n with h | h | h
  · simp [BitVec.getLsbD_shiftLeft, h, Nat.ne_of_lt h]
  · subst h; simp [hn]
  · have : j - n ≠ 0 := by omega
    simp [BitVec.getLsbD_shiftLeft, BitVec.getLsbD_one, this, Nat.ne_of_gt h]

/-- SETB's word: bit `n` is 1, every other bit as before. -/
theorem setBitOf_bit (w : Word) {n : Nat} (hn : n < 32) (j : Nat) :
    (setBitOf w n).getLsbD j = (decide (j = n) || w.getLsbD j) := by
  simp [setBitOf, bitMask_bit hn, Bool.or_comm]

/-- CLRB's word: bit `n` is 0, every other bit as before. -/
theorem clearBitOf_bit (w : Word) {n : Nat} (hn : n < 32) (j : Nat) :
    (clearBitOf w n).getLsbD j = (!decide (j = n) && w.getLsbD j) := by
  by_cases hj : j < 32
  · rw [clearBitOf, BitVec.getLsbD_and, BitVec.getLsbD_not, bitMask_bit hn, decide_eq_true hj,
      Bool.true_and, Bool.and_comm]
  · rw [BitVec.getLsbD_of_ge _ _ (Nat.le_of_not_lt hj),
      BitVec.getLsbD_of_ge _ _ (Nat.le_of_not_lt hj), Bool.and_false]

/-- GETB's bit is the bit. -/
theorem getBitOf_eq (w : Word) (n : Nat) : getBitOf w n = w.getLsbD n := by
  have h : (w >>> n) &&& 1#32 = (BitVec.ofBool (w.getLsbD n)).setWidth 32 := by
    apply BitVec.eq_of_getLsbD_eq
    intro i hi
    rcases Nat.eq_zero_or_pos i with rfl | hp
    · simp
    · simp [BitVec.getLsbD_one, Nat.ne_of_gt hp]
  unfold getBitOf
  rw [h]
  cases w.getLsbD n <;> decide

theorem ctrlStart_clear (w : Word) : ctrlStart (clearBitOf w 6) = false := by
  rw [ctrlStart, clearBitOf_bit w (by omega : 6 < 32)]
  rfl

/-- A byte lane bit by bit (R47). -/
theorem byteLane_bit (d : Word) (k j : Nat) :
    (byteLane d k).getLsbD j = (decide (j < 8) && d.getLsbD (8 * k + j)) := by
  simp [byteLane, BitVec.getLsbD_extractLsb']

end Sys2Proof.Machine
end

