-- ==== Sys2Proof/Laws/State.lean ====
section
/-! SUPPORT. One lemma per field of State per named update, each true by unfolding the update. -/

namespace Sys2Proof.Machine

/-! ### countSteps (R26) -/

@[simp] theorem countSteps_ctrl (k : Nat) (s : State) : (countSteps k s).ctrl = s.ctrl := rfl
@[simp] theorem countSteps_addr (k : Nat) (s : State) : (countSteps k s).addr = s.addr := rfl
@[simp] theorem countSteps_dout (k : Nat) (s : State) : (countSteps k s).dout = s.dout := rfl
@[simp] theorem countSteps_din (k : Nat) (s : State) : (countSteps k s).din = s.din := rfl
@[simp] theorem countSteps_dinBytes (k : Nat) (s : State) :
    (countSteps k s).dinBytes = s.dinBytes := rfl
@[simp] theorem countSteps_status (k : Nat) (s : State) : (countSteps k s).status = s.status := rfl
@[simp] theorem countSteps_engine (k : Nat) (s : State) : (countSteps k s).engine = s.engine := rfl
@[simp] theorem countSteps_seq (k : Nat) (s : State) : (countSteps k s).seq = s.seq := rfl
@[simp] theorem countSteps_stepIdx (k : Nat) (s : State) :
    (countSteps k s).stepIdx = s.stepIdx + k := rfl
@[simp] theorem countSteps_polls (k : Nat) (s : State) : (countSteps k s).polls = s.polls := rfl
@[simp] theorem countSteps_value (k : Nat) (s : State) : (countSteps k s).value = s.value := rfl
@[simp] theorem countSteps_errCode (k : Nat) (s : State) :
    (countSteps k s).errCode = s.errCode := rfl
@[simp] theorem countSteps_errClass (k : Nat) (s : State) :
    (countSteps k s).errClass = s.errClass := rfl
@[simp] theorem countSteps_halt (k : Nat) (s : State) : (countSteps k s).halt = s.halt := rfl
@[simp] theorem countSteps_exitCode (k : Nat) (s : State) :
    (countSteps k s).exitCode = s.exitCode := rfl
@[simp] theorem countSteps_result (k : Nat) (s : State) : (countSteps k s).result = s.result := rfl
@[simp] theorem countSteps_program (k : Nat) (s : State) :
    (countSteps k s).program = s.program := rfl
@[simp] theorem countSteps_env (k : Nat) (s : State) : (countSteps k s).env = s.env := rfl
@[simp] theorem countSteps_tick (k : Nat) (s : State) : (countSteps k s).tick = s.tick := rfl
@[simp] theorem countSteps_bus (k : Nat) (s : State) : (countSteps k s).bus = s.bus := rfl
@[simp] theorem countSteps_cfg (k : Nat) (s : State) : (countSteps k s).cfg = s.cfg := rfl

/-! ### tickOn -/

@[simp] theorem tickOn_ctrl (s : State) : (tickOn s).ctrl = s.ctrl := rfl
@[simp] theorem tickOn_addr (s : State) : (tickOn s).addr = s.addr := rfl
@[simp] theorem tickOn_dout (s : State) : (tickOn s).dout = s.dout := rfl
@[simp] theorem tickOn_din (s : State) : (tickOn s).din = s.din := rfl
@[simp] theorem tickOn_dinBytes (s : State) : (tickOn s).dinBytes = s.dinBytes := rfl
@[simp] theorem tickOn_status (s : State) : (tickOn s).status = s.status := rfl
@[simp] theorem tickOn_engine (s : State) : (tickOn s).engine = s.engine := rfl
@[simp] theorem tickOn_seq (s : State) : (tickOn s).seq = s.seq := rfl
@[simp] theorem tickOn_stepIdx (s : State) : (tickOn s).stepIdx = s.stepIdx := rfl
@[simp] theorem tickOn_polls (s : State) : (tickOn s).polls = s.polls := rfl
@[simp] theorem tickOn_value (s : State) : (tickOn s).value = s.value := rfl
@[simp] theorem tickOn_errCode (s : State) : (tickOn s).errCode = s.errCode := rfl
@[simp] theorem tickOn_errClass (s : State) : (tickOn s).errClass = s.errClass := rfl
@[simp] theorem tickOn_halt (s : State) : (tickOn s).halt = s.halt := rfl
@[simp] theorem tickOn_exitCode (s : State) : (tickOn s).exitCode = s.exitCode := rfl
@[simp] theorem tickOn_result (s : State) : (tickOn s).result = s.result := rfl
@[simp] theorem tickOn_program (s : State) : (tickOn s).program = s.program := rfl
@[simp] theorem tickOn_env (s : State) : (tickOn s).env = s.env := rfl
@[simp] theorem tickOn_tick (s : State) : (tickOn s).tick = s.tick + 1 := rfl
@[simp] theorem tickOn_bus (s : State) : (tickOn s).bus = s.bus := rfl
@[simp] theorem tickOn_cfg (s : State) : (tickOn s).cfg = s.cfg := rfl

/-! ### beginOperation (R26) -/

@[simp] theorem beginOperation_ctrl (s : State) : (beginOperation s).ctrl = s.ctrl := rfl
@[simp] theorem beginOperation_addr (s : State) : (beginOperation s).addr = s.addr := rfl
@[simp] theorem beginOperation_dout (s : State) : (beginOperation s).dout = s.dout := rfl
@[simp] theorem beginOperation_din (s : State) : (beginOperation s).din = s.din := rfl
@[simp] theorem beginOperation_dinBytes (s : State) :
    (beginOperation s).dinBytes = s.dinBytes := rfl
@[simp] theorem beginOperation_status (s : State) : (beginOperation s).status = s.status := rfl
@[simp] theorem beginOperation_engine (s : State) : (beginOperation s).engine = s.engine := rfl
@[simp] theorem beginOperation_seq (s : State) : (beginOperation s).seq = s.seq := rfl
@[simp] theorem beginOperation_stepIdx (s : State) : (beginOperation s).stepIdx = 0 := rfl
@[simp] theorem beginOperation_polls (s : State) : (beginOperation s).polls = s.polls := rfl
@[simp] theorem beginOperation_value (s : State) : (beginOperation s).value = s.value := rfl
@[simp] theorem beginOperation_errCode (s : State) : (beginOperation s).errCode = s.errCode := rfl
@[simp] theorem beginOperation_errClass (s : State) :
    (beginOperation s).errClass = s.errClass := rfl
@[simp] theorem beginOperation_halt (s : State) : (beginOperation s).halt = s.halt := rfl
@[simp] theorem beginOperation_exitCode (s : State) :
    (beginOperation s).exitCode = s.exitCode := rfl
@[simp] theorem beginOperation_result (s : State) : (beginOperation s).result = s.result := rfl
@[simp] theorem beginOperation_program (s : State) : (beginOperation s).program = s.program := rfl
@[simp] theorem beginOperation_env (s : State) : (beginOperation s).env = s.env := rfl
@[simp] theorem beginOperation_tick (s : State) : (beginOperation s).tick = s.tick := rfl
@[simp] theorem beginOperation_bus (s : State) : (beginOperation s).bus = s.bus := rfl
@[simp] theorem beginOperation_cfg (s : State) : (beginOperation s).cfg = s.cfg := rfl

/-! ### complete (R116) -/

@[simp] theorem complete_ctrl (c : Latched) (w : WriteAnswer) (r : ReadAnswer) (s : State) :
    (complete c w r s).ctrl = clearBitOf s.ctrl 6 := rfl
@[simp] theorem complete_addr (c : Latched) (w : WriteAnswer) (r : ReadAnswer) (s : State) :
    (complete c w r s).addr = s.addr := rfl
@[simp] theorem complete_dout (c : Latched) (w : WriteAnswer) (r : ReadAnswer) (s : State) :
    (complete c w r s).dout = s.dout := rfl
@[simp] theorem complete_din (c : Latched) (w : WriteAnswer) (r : ReadAnswer) (s : State) :
    (complete c w r s).din = completedDin c r s := rfl
@[simp] theorem complete_dinBytes (c : Latched) (w : WriteAnswer) (r : ReadAnswer) (s : State) :
    (complete c w r s).dinBytes = completedDinBytes c r := rfl
@[simp] theorem complete_status (c : Latched) (w : WriteAnswer) (r : ReadAnswer) (s : State) :
    (complete c w r s).status = completedFlags s.cfg s.status (failureCode c w r) := rfl
@[simp] theorem complete_engine (c : Latched) (w : WriteAnswer) (r : ReadAnswer) (s : State) :
    (complete c w r s).engine = .idle := rfl
@[simp] theorem complete_seq (c : Latched) (w : WriteAnswer) (r : ReadAnswer) (s : State) :
    (complete c w r s).seq = s.seq := rfl
@[simp] theorem complete_stepIdx (c : Latched) (w : WriteAnswer) (r : ReadAnswer) (s : State) :
    (complete c w r s).stepIdx = s.stepIdx := rfl
@[simp] theorem complete_polls (c : Latched) (w : WriteAnswer) (r : ReadAnswer) (s : State) :
    (complete c w r s).polls = s.polls := rfl
@[simp] theorem complete_value (c : Latched) (w : WriteAnswer) (r : ReadAnswer) (s : State) :
    (complete c w r s).value = s.value := rfl
@[simp] theorem complete_errCode (c : Latched) (w : WriteAnswer) (r : ReadAnswer) (s : State) :
    (complete c w r s).errCode = s.errCode := rfl
@[simp] theorem complete_errClass (c : Latched) (w : WriteAnswer) (r : ReadAnswer) (s : State) :
    (complete c w r s).errClass = s.errClass := rfl
@[simp] theorem complete_halt (c : Latched) (w : WriteAnswer) (r : ReadAnswer) (s : State) :
    (complete c w r s).halt = s.halt := rfl
@[simp] theorem complete_exitCode (c : Latched) (w : WriteAnswer) (r : ReadAnswer) (s : State) :
    (complete c w r s).exitCode = s.exitCode := rfl
@[simp] theorem complete_result (c : Latched) (w : WriteAnswer) (r : ReadAnswer) (s : State) :
    (complete c w r s).result = s.result := rfl
@[simp] theorem complete_program (c : Latched) (w : WriteAnswer) (r : ReadAnswer) (s : State) :
    (complete c w r s).program = s.program := rfl
@[simp] theorem complete_env (c : Latched) (w : WriteAnswer) (r : ReadAnswer) (s : State) :
    (complete c w r s).env = s.env := rfl
@[simp] theorem complete_tick (c : Latched) (w : WriteAnswer) (r : ReadAnswer) (s : State) :
    (complete c w r s).tick = s.tick := rfl
@[simp] theorem complete_bus (c : Latched) (w : WriteAnswer) (r : ReadAnswer) (s : State) :
    (complete c w r s).bus = s.bus ++ [busQuestion c] := rfl
@[simp] theorem complete_cfg (c : Latched) (w : WriteAnswer) (r : ReadAnswer) (s : State) :
    (complete c w r s).cfg = s.cfg := rfl

/-! ### accept (R114) -/

@[simp] theorem accept_ctrl (v : Word) (s : State) : (accept v s).ctrl = v := rfl
@[simp] theorem accept_addr (v : Word) (s : State) : (accept v s).addr = s.addr := rfl
@[simp] theorem accept_dout (v : Word) (s : State) : (accept v s).dout = s.dout := rfl
@[simp] theorem accept_din (v : Word) (s : State) : (accept v s).din = s.din := rfl
@[simp] theorem accept_dinBytes (v : Word) (s : State) : (accept v s).dinBytes = s.dinBytes := rfl
@[simp] theorem accept_status (v : Word) (s : State) :
    (accept v s).status = acceptedFlags s.cfg s.status := rfl
@[simp] theorem accept_engine (v : Word) (s : State) :
    (accept v s).engine = .pending (latch s.cfg.readLen v s.addr s.dout) := rfl
@[simp] theorem accept_seq (v : Word) (s : State) : (accept v s).seq = s.seq := rfl
@[simp] theorem accept_stepIdx (v : Word) (s : State) : (accept v s).stepIdx = s.stepIdx := rfl
@[simp] theorem accept_polls (v : Word) (s : State) : (accept v s).polls = s.polls := rfl
@[simp] theorem accept_value (v : Word) (s : State) : (accept v s).value = s.value := rfl
@[simp] theorem accept_errCode (v : Word) (s : State) : (accept v s).errCode = s.errCode := rfl
@[simp] theorem accept_errClass (v : Word) (s : State) : (accept v s).errClass = s.errClass := rfl
@[simp] theorem accept_halt (v : Word) (s : State) : (accept v s).halt = s.halt := rfl
@[simp] theorem accept_exitCode (v : Word) (s : State) : (accept v s).exitCode = s.exitCode := rfl
@[simp] theorem accept_result (v : Word) (s : State) : (accept v s).result = s.result := rfl
@[simp] theorem accept_program (v : Word) (s : State) : (accept v s).program = s.program := rfl
@[simp] theorem accept_env (v : Word) (s : State) : (accept v s).env = s.env := rfl
@[simp] theorem accept_tick (v : Word) (s : State) : (accept v s).tick = s.tick := rfl
@[simp] theorem accept_bus (v : Word) (s : State) : (accept v s).bus = s.bus := rfl
@[simp] theorem accept_cfg (v : Word) (s : State) : (accept v s).cfg = s.cfg := rfl

/-! ### raiseFatal Timeout (R174) -/

@[simp] theorem timeout_ctrl (s : State) : (raiseFatal .timeout s).ctrl = s.ctrl := rfl
@[simp] theorem timeout_addr (s : State) : (raiseFatal .timeout s).addr = s.addr := rfl
@[simp] theorem timeout_dout (s : State) : (raiseFatal .timeout s).dout = s.dout := rfl
@[simp] theorem timeout_din (s : State) : (raiseFatal .timeout s).din = s.din := rfl
@[simp] theorem timeout_dinBytes (s : State) : (raiseFatal .timeout s).dinBytes = s.dinBytes := rfl
@[simp] theorem timeout_status (s : State) : (raiseFatal .timeout s).status = s.status := rfl
@[simp] theorem timeout_engine (s : State) : (raiseFatal .timeout s).engine = s.engine := rfl
@[simp] theorem timeout_seq (s : State) : (raiseFatal .timeout s).seq = .timeout := rfl
@[simp] theorem timeout_stepIdx (s : State) : (raiseFatal .timeout s).stepIdx = s.stepIdx := rfl
@[simp] theorem timeout_polls (s : State) : (raiseFatal .timeout s).polls = s.polls := rfl
@[simp] theorem timeout_value (s : State) : (raiseFatal .timeout s).value = s.value := rfl
@[simp] theorem timeout_errCode (s : State) : (raiseFatal .timeout s).errCode = s.errCode := rfl
@[simp] theorem timeout_errClass (s : State) : (raiseFatal .timeout s).errClass = s.errClass := rfl
@[simp] theorem timeout_halt (s : State) : (raiseFatal .timeout s).halt = true := rfl
@[simp] theorem timeout_exitCode (s : State) : (raiseFatal .timeout s).exitCode = .timeout := rfl
@[simp] theorem timeout_result (s : State) : (raiseFatal .timeout s).result = s.result := rfl
@[simp] theorem timeout_program (s : State) : (raiseFatal .timeout s).program = s.program := rfl
@[simp] theorem timeout_env (s : State) : (raiseFatal .timeout s).env = s.env := rfl
@[simp] theorem timeout_tick (s : State) : (raiseFatal .timeout s).tick = s.tick := rfl
@[simp] theorem timeout_bus (s : State) : (raiseFatal .timeout s).bus = s.bus := rfl
@[simp] theorem timeout_cfg (s : State) : (raiseFatal .timeout s).cfg = s.cfg := rfl

/-! ### raiseFatal ProtocolError (R174) -/

@[simp] theorem protocolError_ctrl (code : Byte) (s : State) :
    (raiseFatal (.protocolError code) s).ctrl = s.ctrl := rfl
@[simp] theorem protocolError_addr (code : Byte) (s : State) :
    (raiseFatal (.protocolError code) s).addr = s.addr := rfl
@[simp] theorem protocolError_dout (code : Byte) (s : State) :
    (raiseFatal (.protocolError code) s).dout = s.dout := rfl
@[simp] theorem protocolError_din (code : Byte) (s : State) :
    (raiseFatal (.protocolError code) s).din = s.din := rfl
@[simp] theorem protocolError_dinBytes (code : Byte) (s : State) :
    (raiseFatal (.protocolError code) s).dinBytes = s.dinBytes := rfl
@[simp] theorem protocolError_status (code : Byte) (s : State) :
    (raiseFatal (.protocolError code) s).status = s.status := rfl
@[simp] theorem protocolError_engine (code : Byte) (s : State) :
    (raiseFatal (.protocolError code) s).engine = s.engine := rfl
@[simp] theorem protocolError_seq (code : Byte) (s : State) :
    (raiseFatal (.protocolError code) s).seq = .error := rfl
@[simp] theorem protocolError_stepIdx (code : Byte) (s : State) :
    (raiseFatal (.protocolError code) s).stepIdx = s.stepIdx := rfl
@[simp] theorem protocolError_polls (code : Byte) (s : State) :
    (raiseFatal (.protocolError code) s).polls = s.polls := rfl
@[simp] theorem protocolError_value (code : Byte) (s : State) :
    (raiseFatal (.protocolError code) s).value = s.value := rfl
@[simp] theorem protocolError_errCode (code : Byte) (s : State) :
    (raiseFatal (.protocolError code) s).errCode = code := rfl
@[simp] theorem protocolError_errClass (code : Byte) (s : State) :
    (raiseFatal (.protocolError code) s).errClass = decodeClass code := rfl
@[simp] theorem protocolError_halt (code : Byte) (s : State) :
    (raiseFatal (.protocolError code) s).halt = true := rfl
@[simp] theorem protocolError_exitCode (code : Byte) (s : State) :
    (raiseFatal (.protocolError code) s).exitCode = .error := rfl
@[simp] theorem protocolError_result (code : Byte) (s : State) :
    (raiseFatal (.protocolError code) s).result = s.result := rfl
@[simp] theorem protocolError_program (code : Byte) (s : State) :
    (raiseFatal (.protocolError code) s).program = s.program := rfl
@[simp] theorem protocolError_env (code : Byte) (s : State) :
    (raiseFatal (.protocolError code) s).env = s.env := rfl
@[simp] theorem protocolError_tick (code : Byte) (s : State) :
    (raiseFatal (.protocolError code) s).tick = s.tick := rfl
@[simp] theorem protocolError_bus (code : Byte) (s : State) :
    (raiseFatal (.protocolError code) s).bus = s.bus := rfl
@[simp] theorem protocolError_cfg (code : Byte) (s : State) :
    (raiseFatal (.protocolError code) s).cfg = s.cfg := rfl

/-! ### newProcess (R191) -/

@[simp] theorem newProcess_ctrl (s : State) : (newProcess s).ctrl = s.ctrl := rfl
@[simp] theorem newProcess_addr (s : State) : (newProcess s).addr = s.addr := rfl
@[simp] theorem newProcess_dout (s : State) : (newProcess s).dout = s.dout := rfl
@[simp] theorem newProcess_din (s : State) : (newProcess s).din = s.din := rfl
@[simp] theorem newProcess_dinBytes (s : State) : (newProcess s).dinBytes = s.dinBytes := rfl
@[simp] theorem newProcess_status (s : State) : (newProcess s).status = s.status := rfl
@[simp] theorem newProcess_engine (s : State) : (newProcess s).engine = s.engine := rfl
@[simp] theorem newProcess_seq (s : State) : (newProcess s).seq = .uninitialized := rfl
@[simp] theorem newProcess_stepIdx (s : State) : (newProcess s).stepIdx = 0 := rfl
@[simp] theorem newProcess_polls (s : State) : (newProcess s).polls = 0 := rfl
@[simp] theorem newProcess_value (s : State) : (newProcess s).value = 0x00000000#32 := rfl
@[simp] theorem newProcess_errCode (s : State) : (newProcess s).errCode = 0x00#8 := rfl
@[simp] theorem newProcess_errClass (s : State) : (newProcess s).errClass = .unknown 0x00#8 := rfl
@[simp] theorem newProcess_halt (s : State) : (newProcess s).halt = false := rfl
@[simp] theorem newProcess_exitCode (s : State) : (newProcess s).exitCode = .ok := rfl
@[simp] theorem newProcess_result (s : State) : (newProcess s).result = .nothing := rfl
@[simp] theorem newProcess_program (s : State) : (newProcess s).program = s.program := rfl
@[simp] theorem newProcess_env (s : State) : (newProcess s).env = s.env := rfl
@[simp] theorem newProcess_tick (s : State) : (newProcess s).tick = s.tick := rfl
@[simp] theorem newProcess_bus (s : State) : (newProcess s).bus = s.bus := rfl
@[simp] theorem newProcess_cfg (s : State) : (newProcess s).cfg = s.cfg := rfl

/-! ### engineTurn: what the engine's opportunity never changes (R116) -/

@[simp] theorem engineTurn_addr (s : State) : (engineTurn s).addr = s.addr := by
  unfold engineTurn; split <;> [rfl; (split <;> rfl)]
@[simp] theorem engineTurn_dout (s : State) : (engineTurn s).dout = s.dout := by
  unfold engineTurn; split <;> [rfl; (split <;> rfl)]
@[simp] theorem engineTurn_seq (s : State) : (engineTurn s).seq = s.seq := by
  unfold engineTurn; split <;> [rfl; (split <;> rfl)]
@[simp] theorem engineTurn_stepIdx (s : State) : (engineTurn s).stepIdx = s.stepIdx := by
  unfold engineTurn; split <;> [rfl; (split <;> rfl)]
@[simp] theorem engineTurn_polls (s : State) : (engineTurn s).polls = s.polls := by
  unfold engineTurn; split <;> [rfl; (split <;> rfl)]
@[simp] theorem engineTurn_value (s : State) : (engineTurn s).value = s.value := by
  unfold engineTurn; split <;> [rfl; (split <;> rfl)]
@[simp] theorem engineTurn_errCode (s : State) : (engineTurn s).errCode = s.errCode := by
  unfold engineTurn; split <;> [rfl; (split <;> rfl)]
@[simp] theorem engineTurn_errClass (s : State) : (engineTurn s).errClass = s.errClass := by
  unfold engineTurn; split <;> [rfl; (split <;> rfl)]
@[simp] theorem engineTurn_halt (s : State) : (engineTurn s).halt = s.halt := by
  unfold engineTurn; split <;> [rfl; (split <;> rfl)]
@[simp] theorem engineTurn_exitCode (s : State) : (engineTurn s).exitCode = s.exitCode := by
  unfold engineTurn; split <;> [rfl; (split <;> rfl)]
@[simp] theorem engineTurn_result (s : State) : (engineTurn s).result = s.result := by
  unfold engineTurn; split <;> [rfl; (split <;> rfl)]
@[simp] theorem engineTurn_program (s : State) : (engineTurn s).program = s.program := by
  unfold engineTurn; split <;> [rfl; (split <;> rfl)]
@[simp] theorem engineTurn_tick (s : State) : (engineTurn s).tick = s.tick := by
  unfold engineTurn; split <;> [rfl; (split <;> rfl)]
@[simp] theorem engineTurn_cfg (s : State) : (engineTurn s).cfg = s.cfg := by
  unfold engineTurn; split <;> [rfl; (split <;> rfl)]

end Sys2Proof.Machine
end

