-- ==== Sys2Proof/Laws/Ops.lean ====
section
/-! SUPPORT. What each shared operation can do, said once: the engine's opportunity, the register
port, the accessors, the command check (spec/40_register_port.md, spec/42_bus_engine.md). -/

namespace Sys2Proof.Machine

/-! ### Sequencing -/

@[simp] theorem bind_ok {α β : Type} (a : α) (s : State) (k : α → State → Run β) :
    (Run.ok a s).bind k = k a s := rfl
@[simp] theorem bind_fault {α β : Type} (f : Fault) (k : α → State → Run β) :
    (Run.fault f : Run α).bind k = .fault f := rfl
@[simp] theorem bind_refused {α β : Type} (e : Refusal) (k : α → State → Run β) :
    (Run.refused e : Run α).bind k = .refused e := rfl

/-- An operation after another answers only if both do. -/
theorem bind_eq_ok {α β : Type} {r : Run α} {k : α → State → Run β} {b : β} {t : State} :
    r.bind k = .ok b t ↔ ∃ a u, r = .ok a u ∧ k a u = .ok b t := by
  cases r <;> simp [Run.bind]

@[simp] theorem counted_ok {α : Type} (k : Nat) (a : α) (s : State) :
    counted k (Run.ok a s) = .ok a (countSteps k s) := rfl
@[simp] theorem counted_fault {α : Type} (k : Nat) (f : Fault) :
    counted k (Run.fault f : Run α) = .fault f := rfl
@[simp] theorem counted_refused {α : Type} (k : Nat) (e : Refusal) :
    counted k (Run.refused e : Run α) = .refused e := rfl

theorem counted_eq_ok {α : Type} {k : Nat} {r : Run α} {a : α} {t : State} :
    counted k r = .ok a t ↔ ∃ u, r = .ok a u ∧ t = countSteps k u := by
  cases r <;> simp [counted, Run.bind, eq_comm]

/-! ### The engine's opportunity (R54, R117) -/

theorem engineTurn_idle {s : State} (h : s.engine = .idle) : engineTurn s = s := by
  simp [engineTurn, h]

theorem engineTurn_hold {s : State} {c : Latched} {rest : List EnvMove}
    (hc : s.engine = .pending c) (he : s.env = .hold :: rest) :
    engineTurn s = { s with env := rest } := by
  simp [engineTurn, nextMove, hc, he]

theorem engineTurn_move {s : State} {c : Latched} {w : WriteAnswer} {r : ReadAnswer}
    {rest : List EnvMove} (hc : s.engine = .pending c) (he : s.env = .move w r :: rest) :
    engineTurn s = complete c w r { s with env := rest } := by
  simp [engineTurn, nextMove, hc, he]

/-- While IDLE nothing happens; while PENDING the engine holds or takes one completion step. -/
theorem engineTurn_cases (s : State) :
    (s.engine = .idle ∧ engineTurn s = s) ∨
    ∃ c, s.engine = .pending c ∧
      (engineTurn s = { s with env := s.env.tail } ∨
        ∃ w r, engineTurn s = complete c w r { s with env := s.env.tail }) := by
  cases h : s.engine with
  | idle => exact .inl ⟨rfl, engineTurn_idle h⟩
  | pending c =>
    refine .inr ⟨c, rfl, ?_⟩
    cases hm : nextMove c s with
    | hold => left; simp [engineTurn, h, hm]
    | move w r => right; exact ⟨w, r, by simp [engineTurn, h, hm]⟩

/-- After its opportunity the engine is IDLE, or PENDING with the same command. -/
theorem engineTurn_engine (s : State) :
    (engineTurn s).engine = .idle ∨ (engineTurn s).engine = s.engine := by
  rcases engineTurn_cases s with ⟨h, e⟩ | ⟨c, h, e | ⟨w, r, e⟩⟩ <;> rw [e]
  · exact .inl h
  · exact .inr rfl
  · exact .inl rfl

/-! ### The register port (R79 to R92) -/

@[simp] theorem windowReg_regOffset (x : Reg) :
    windowReg Config.regWidth (regOffset x) = .ok x := by
  cases x <;> rfl

@[simp] theorem readPort_regOffset (x : Reg) (s : State) :
    readPort Config.regWidth (regOffset x) s = readReg x s := by
  simp [readPort]

@[simp] theorem writePort_regOffset (x : Reg) (v : Word) (s : State) :
    writePort Config.regWidth (regOffset x) v s = writeReg x v s := by
  simp [writePort]

/-- An access reaches a register only at its own offset with the one width. -/
theorem windowReg_eq_ok {width : Nat} {off : Int} {x : Reg} :
    windowReg width off = .ok x ↔ width = Config.regWidth ∧ off = regOffset x := by
  constructor
  · intro h
    unfold windowReg at h
    split at h
    · cases h
    split at h
    · cases h
    split at h
    · cases h
    rename_i hw _ _ y hy
    cases h
    refine ⟨by simpa using hw, ?_⟩
    unfold regAt at hy
    split at hy
    · cases hy; assumption
    split at hy
    · cases hy; assumption
    split at hy
    · cases hy; assumption
    split at hy
    · cases hy; assumption
    split at hy
    · cases hy; assumption
    · cases hy
  · rintro ⟨rfl, rfl⟩
    exact windowReg_regOffset x

/-- A host read of DIN is wholly a draw while a read is pending, and when the last completed
transaction was no successful read (R87). -/
theorem dinValue_draw {s : State}
    (h : (∃ c, s.engine = .pending c ∧ c.kind = .read) ∨ s.dinBytes = 0) :
    dinValue s = Config.dinDraw s.tick := by
  have h0 : ∀ a b : Word, overlay 0 a b = b := by
    intro a b
    show (a &&& 0#32) ||| (b &&& BitVec.allOnes 32) = b
    rw [BitVec.and_zero, BitVec.and_allOnes, BitVec.zero_or]
  unfold dinValue
  rcases h with ⟨c, hc, hk⟩ | h
  · obtain ⟨k, n, a, d⟩ := c
    cases hk
    rw [hc]
  · rw [h, h0]
    split <;> rfl

theorem readReg_idle {s : State} (x : Reg) (h : s.engine = .idle) :
    readReg x s = .ok (readValue x s) (tickOn s) := by
  simp [readReg, engineTurn_idle h]

theorem writeReg_idle {s : State} (x : Reg) (v : Word) (h : s.engine = .idle) :
    writeReg x v s = (writeIdle x v s).bind fun _ t => .ok () (tickOn t) := by
  simp [writeReg, engineTurn_idle h, h]

theorem writeReg_pending {s : State} {c : Latched} (x : Reg) (v : Word)
    (h : (engineTurn s).engine = .pending c) : writeReg x v s = .fault .writeWhilePending := by
  simp [writeReg, h]

/-- A plain store to CTRL (R81). -/
theorem writeCtrl_store {v : Word} (s : State) (h : ctrlStart v = false) :
    writeCtrl v s = .ok () { s with ctrl := v } := by
  simp [writeCtrl, h]

/-- An accepted start (R82, R114). -/
theorem writeCtrl_accept {v : Word} (s : State) (hs : ctrlStart v = true) (he : ctrlEn v = true)
    (hd : ctrlDswap v = false) (hr : ctrlRo v = false) :
    writeCtrl v s = .ok () (accept v s) := by
  simp [writeCtrl, hs, he, hd, hr]

/-- A write to CTRL answers only as a plain store or as an accepted start. -/
theorem writeCtrl_eq_ok {v : Word} {s t : State} (h : writeCtrl v s = .ok () t) :
    (ctrlStart v = false ∧ t = { s with ctrl := v }) ∨
    (ctrlStart v = true ∧ ctrlEn v = true ∧ ctrlDswap v = false ∧ ctrlRo v = false ∧
      t = accept v s) := by
  unfold writeCtrl at h
  split at h
  · split at h
    · cases h
    split at h
    · cases h
    split at h
    · cases h
    cases h
    simp_all
  · cases h
    simp_all

/-- What a host write while IDLE can do (R81 to R89). -/
theorem writeIdle_eq_ok {x : Reg} {v : Word} {s t : State} (h : writeIdle x v s = .ok () t) :
    (x = .ctrl ∧ ctrlStart v = false ∧ t = { s with ctrl := v }) ∨
    (x = .ctrl ∧ ctrlStart v = true ∧ ctrlEn v = true ∧ ctrlDswap v = false ∧
      ctrlRo v = false ∧ t = accept v s) ∨
    (x = .addr ∧ t = { s with addr := v }) ∨
    (x = .dout ∧ t = { s with dout := v }) ∨
    (x = .status ∧ v = Config.statusClearLiteral ∧
      t = { s with status := clearFlags s.status }) := by
  cases x with
  | ctrl => rcases writeCtrl_eq_ok h with h | h <;> simp_all
  | addr => cases h; simp
  | dout => cases h; simp
  | din => cases h
  | status =>
    simp only [writeIdle, writeStatus] at h
    split at h <;> cases h
    simp_all

/-- A host write answers only if the engine is IDLE when it lands (R90). -/
theorem writeReg_eq_ok {x : Reg} {v : Word} {s t : State} (h : writeReg x v s = .ok () t) :
    (engineTurn s).engine = .idle ∧
      ∃ u, writeIdle x v (engineTurn s) = .ok () u ∧ t = tickOn u := by
  unfold writeReg at h
  split at h
  · cases h
  · rename_i hi
    obtain ⟨_, u, hu, ht⟩ := bind_eq_ok.1 h
    cases ht
    exact ⟨hi, u, hu, rfl⟩

theorem readReg_eq_ok {x : Reg} {s t : State} {w : Word} :
    readReg x s = .ok w t ↔ w = readValue x (engineTurn s) ∧ t = tickOn (engineTurn s) := by
  simp [readReg, eq_comm]

/-! ### The sequencer's fields: no access touches them (P7 of spec/95_test_vectors.md) -/

theorem sameSequencer_trans {s t u : State} (h : sameSequencer s t) (k : sameSequencer t u) :
    sameSequencer s u := by
  unfold sameSequencer at *
  simp_all

theorem sameHost_trans {s t u : State} (h : sameHost s t) (k : sameHost t u) :
    sameHost s u := by
  unfold sameHost at *
  simp_all

theorem readReg_frame {x : Reg} {s t : State} {w : Word} (h : readReg x s = .ok w t) :
    sameSequencer s t ∧ sameHost s t := by
  obtain ⟨-, rfl⟩ := readReg_eq_ok.1 h
  simp [sameSequencer, sameHost]

theorem writeReg_frame {x : Reg} {v : Word} {s t : State} (h : writeReg x v s = .ok () t) :
    sameSequencer s t ∧ sameHost s t := by
  obtain ⟨-, u, hu, rfl⟩ := writeReg_eq_ok h
  rcases writeIdle_eq_ok hu with ⟨-, -, rfl⟩ | ⟨-, -, -, -, -, rfl⟩ | ⟨-, rfl⟩ | ⟨-, rfl⟩ |
    ⟨-, -, rfl⟩ <;> simp [sameSequencer, sameHost]

theorem setBit_frame {x : Reg} {n : Nat} {s t : State} (h : setBit x n s = .ok () t) :
    sameSequencer s t ∧ sameHost s t := by
  obtain ⟨w, u, hu, ht⟩ := bind_eq_ok.1 h
  exact ⟨sameSequencer_trans (readReg_frame hu).1 (writeReg_frame ht).1,
    sameHost_trans (readReg_frame hu).2 (writeReg_frame ht).2⟩

theorem clearBit_frame {x : Reg} {n : Nat} {s t : State} (h : clearBit x n s = .ok () t) :
    sameSequencer s t ∧ sameHost s t := by
  obtain ⟨w, u, hu, ht⟩ := bind_eq_ok.1 h
  exact ⟨sameSequencer_trans (readReg_frame hu).1 (writeReg_frame ht).1,
    sameHost_trans (readReg_frame hu).2 (writeReg_frame ht).2⟩

theorem getBit_eq_ok {x : Reg} {n : Nat} {s t : State} {b : Bool} :
    getBit x n s = .ok b t ↔
      b = (readValue x (engineTurn s)).getLsbD n ∧ t = tickOn (engineTurn s) := by
  simp [getBit, readReg, getBitOf_eq, eq_comm]

/-! ### STATUS as a word (R66) -/

theorem statusWord_bit (f : Status) (j : Nat) :
    (statusWord f).getLsbD j =
      ((decide (8 ≤ j) && f.code.getLsbD (j - 8)) || (decide (j = 1) && f.done) ||
        (decide (j = 0) && f.err)) := by
  rcases f with ⟨c, d, e⟩
  by_cases hj : j < 32
  · have h1 : (BitVec.setWidth 32 (BitVec.ofBool d) <<< 1).getLsbD j =
        (decide (j = 1) && d) := by
      rw [BitVec.getLsbD_shiftLeft, BitVec.getLsbD_setWidth, BitVec.getLsbD_ofBool]
      rcases Nat.lt_trichotomy j 1 with h | h | h
      · simp [h, Nat.ne_of_lt h]
      · subst h; simp
      · have : j - 1 ≠ 0 := by omega
        simp [this, Nat.ne_of_gt h]
    have h0 : (BitVec.setWidth 32 (BitVec.ofBool e)).getLsbD j = (decide (j = 0) && e) := by
      rw [BitVec.getLsbD_setWidth, BitVec.getLsbD_ofBool]; simp [hj]
    have h8 : (BitVec.setWidth 32 c <<< 8).getLsbD j =
        (decide (8 ≤ j) && c.getLsbD (j - 8)) := by
      rw [BitVec.getLsbD_shiftLeft, BitVec.getLsbD_setWidth]
      by_cases h : j < 8
      · simp [h, Nat.not_le.2 h]
      · have : j - 8 < 32 := by omega
        simp [h, Nat.not_lt.1 h, hj, this]
    rw [statusWord, BitVec.getLsbD_or, BitVec.getLsbD_or, h8, h1, h0]
  · rw [BitVec.getLsbD_of_ge _ _ (Nat.le_of_not_lt hj),
      BitVec.getLsbD_of_ge _ _ (by omega : 8 ≤ j - 8)]
    have : j ≠ 1 := by omega
    have h0 : j ≠ 0 := by omega
    simp [this, h0]

@[simp] theorem statusWord_done (f : Status) : (statusWord f).getLsbD 1 = f.done := by
  rw [statusWord_bit]; simp

@[simp] theorem statusWord_err (f : Status) : (statusWord f).getLsbD 0 = f.err := by
  rw [statusWord_bit]; simp

@[simp] theorem statusWord_code (f : Status) : wordCode (statusWord f) = f.code := by
  apply BitVec.eq_of_getLsbD_eq
  intro i hi
  rw [wordCode, BitVec.getLsbD_extractLsb', statusWord_bit]
  have h1 : 8 + i ≠ 1 := by omega
  have h0 : 8 + i ≠ 0 := by omega
  simp [hi, h1]

/-! ### Commands (R147) -/

theorem ready_iff {s : State} :
    s.ready = true ↔ seqHalted s.seq = false ∧ seqBusy s.seq = false := by
  simp [State.ready]

theorem command_ready {s : State} (k : State → Run HostResult) (h : s.ready = true) :
    command k s = finish (k s) := by
  obtain ⟨h1, h2⟩ := ready_iff.1 h
  simp [command, h1, h2]

theorem command_halted {s : State} (k : State → Run HostResult) (h : seqHalted s.seq = true) :
    command k s = .refused .halted := by
  simp [command, h]

/-- A command answers only when it may be issued and its operation answers. -/
theorem command_eq_next {s t : State} {k : State → Run HostResult}
    (h : command k s = .next t) :
    s.ready = true ∧ ∃ v u, k s = .ok v u ∧ t = { u with result := v } := by
  unfold command at h
  split at h
  · cases h
  split at h
  · cases h
  refine ⟨ready_iff.2 ⟨by simp_all, by simp_all⟩, ?_⟩
  cases hk : k s with
  | ok v u => rw [hk] at h; cases h; exact ⟨v, u, rfl, rfl⟩
  | fault f => rw [hk] at h; cases h
  | refused e => rw [hk] at h; cases h

end Sys2Proof.Machine
end

