-- ==== Sys2Proof/Laws/Sequencer.lean ====
section
/-! SUPPORT. What the lines of the sequenced operations do while the block is IDLE, and what the poll
does, said once each (spec/43_sequencer.md R141 to R145). -/

namespace Sys2Proof.Machine

/-! ### Accesses to CTRL while IDLE -/

theorem readReg_ctrl_idle {s : State} (h : s.engine = .idle) :
    readReg .ctrl s = .ok s.ctrl { s with tick := s.tick + 1 } := readReg_idle .ctrl h

theorem writeReg_ctrl_store {s : State} {v : Word} (h : s.engine = .idle)
    (hv : ctrlStart v = false) :
    writeReg .ctrl v s = .ok () { s with ctrl := v, tick := s.tick + 1 } := by
  rw [writeReg_idle _ _ h, writeIdle, writeCtrl_store s hv]
  rfl

theorem writeReg_ctrl_accept {s : State} {v : Word} (h : s.engine = .idle)
    (hs : ctrlStart v = true) (he : ctrlEn v = true) (hd : ctrlDswap v = false)
    (hr : ctrlRo v = false) :
    writeReg .ctrl v s = .ok () { accept v s with tick := s.tick + 1 } := by
  rw [writeReg_idle _ _ h, writeIdle, writeCtrl_accept s hs he hd hr]
  rfl

theorem writeReg_addr_idle {s : State} {v : Word} (h : s.engine = .idle) :
    writeReg .addr v s = .ok () { s with addr := v, tick := s.tick + 1 } := by
  rw [writeReg_idle _ _ h]; rfl

theorem writeReg_dout_idle {s : State} {v : Word} (h : s.engine = .idle) :
    writeReg .dout v s = .ok () { s with dout := v, tick := s.tick + 1 } := by
  rw [writeReg_idle _ _ h]; rfl

theorem writeReg_status_clear {s : State} (h : s.engine = .idle) :
    writeReg .status 0x00000003#32 s =
      .ok () { s with status := clearFlags s.status, tick := s.tick + 1 } := by
  rw [writeReg_idle _ _ h]; rfl

theorem setBit_ctrl_store {s : State} {n : Nat} (h : s.engine = .idle)
    (hv : ctrlStart (setBitOf s.ctrl n) = false) :
    setBit .ctrl n s = .ok () { s with ctrl := setBitOf s.ctrl n, tick := s.tick + 2 } := by
  rw [setBit, readReg_ctrl_idle h, bind_ok, writeReg_ctrl_store (by simpa using h) hv]

theorem clearBit_ctrl_store {s : State} {n : Nat} (h : s.engine = .idle)
    (hv : ctrlStart (clearBitOf s.ctrl n) = false) :
    clearBit .ctrl n s = .ok () { s with ctrl := clearBitOf s.ctrl n, tick := s.tick + 2 } := by
  rw [clearBit, readReg_ctrl_idle h, bind_ok, writeReg_ctrl_store (by simpa using h) hv]

theorem setBit_ctrl_trigger {s : State} (h : s.engine = .idle) (he : ctrlEn s.ctrl = true)
    (hd : ctrlDswap s.ctrl = false) (hr : ctrlRo s.ctrl = false) :
    setBit .ctrl 6 s =
      .ok () { accept (setBitOf s.ctrl 6) s with tick := s.tick + 2 } := by
  have hb := fun j => setBitOf_bit s.ctrl (n := 6) (by omega) j
  rw [setBit, readReg_ctrl_idle h, bind_ok,
    writeReg_ctrl_accept (by simpa using h) (by rw [ctrlStart, hb]; rfl)
      (by rw [ctrlEn, hb]; simpa [ctrlEn] using he)
      (by rw [ctrlDswap, hb]; simpa [ctrlDswap] using hd)
      (by rw [ctrlRo, hb]; simpa [ctrlRo] using hr)]
  rfl

/-! ### The words the sequencer writes (R65, R142, R143) -/

theorem lengthField_bit {len : Int} (h1 : 1 ≤ len) (h4 : len ≤ 4) {j : Nat} (hj : 2 ≤ j) :
    (lengthField len).getLsbD j = false := by
  have : len = 1 ∨ len = 2 ∨ len = 3 ∨ len = 4 := by omega
  have hw : ∀ m : Nat, m < 4 → (BitVec.ofNat 32 m).getLsbD j = false := by
    intro m hm
    rw [BitVec.getLsbD_ofNat]
    have : m.testBit j = false :=
      Nat.testBit_lt_two_pow (lt_of_lt_of_le hm (by
        calc 4 = 2 ^ 2 := rfl
          _ ≤ 2 ^ j := Nat.pow_le_pow_right (by omega) hj))
    simp [this]
  rcases this with rfl | rfl | rfl | rfl
  · exact hw 0 (by omega)
  · exact hw 1 (by omega)
  · exact hw 2 (by omega)
  · exact hw 3 (by omega)

/-- Replacing the write length changes no bit above 3. -/
theorem withWlen_bit (c : Word) {len : Int} (h1 : 1 ≤ len) (h4 : len ≤ 4) {j : Nat}
    (hj : 4 ≤ j) : (withWlen c len).getLsbD j = c.getLsbD j := by
  by_cases h32 : j < 32
  · have hm : (0xFFFFFFF3#32).getLsbD j = true := by
      have : ∀ j : Fin 32, 4 ≤ j.val → (0xFFFFFFF3#32).getLsbD j.val = true := by decide
      exact this ⟨j, h32⟩ hj
    rw [withWlen, BitVec.getLsbD_or, BitVec.getLsbD_and, hm, BitVec.getLsbD_shiftLeft,
      lengthField_bit h1 h4 (by omega : 2 ≤ j - 2)]
    simp
  · rw [BitVec.getLsbD_of_ge _ _ (Nat.le_of_not_lt h32),
      BitVec.getLsbD_of_ge _ _ (Nat.le_of_not_lt h32)]

/-- Replacing the read length changes no bit above 3, in either place of the field. -/
theorem withRlen_bit (p : ReadLen) (c : Word) {len : Int} (h1 : 1 ≤ len) (h4 : len ≤ 4) {j : Nat}
    (hj : 4 ≤ j) : (withRlen p c len).getLsbD j = c.getLsbD j := by
  cases p with
  | lsb2 => exact withWlen_bit c h1 h4 hj
  | lsb0 =>
    by_cases h32 : j < 32
    · have hm : (0xFFFFFFFC#32).getLsbD j = true := by
        have : ∀ j : Fin 32, 4 ≤ j.val → (0xFFFFFFFC#32).getLsbD j.val = true := by decide
        exact this ⟨j, h32⟩ hj
      rw [withRlen, BitVec.getLsbD_or, BitVec.getLsbD_and, hm,
        lengthField_bit h1 h4 (by omega : 2 ≤ j)]
      simp
    · rw [BitVec.getLsbD_of_ge _ _ (Nat.le_of_not_lt h32),
        BitVec.getLsbD_of_ge _ _ (Nat.le_of_not_lt h32)]

/-- CTRL as TWI.WRITE leaves it before its trigger. -/
def writeWord (c : Word) (len : Int) : Word := setBitOf (clearBitOf (withWlen c len) 5) 4

/-- CTRL as TWI.READ leaves it before its trigger. -/
def readWord (p : ReadLen) (c : Word) (len : Int) : Word :=
  clearBitOf (clearBitOf (withRlen p c len) 4) 5

theorem writeWord_bit (c : Word) {len : Int} (h1 : 1 ≤ len) (h4 : len ≤ 4) {j : Nat}
    (hj : 4 ≤ j) :
    (writeWord c len).getLsbD j = (decide (j = 4) || (!decide (j = 5) && c.getLsbD j)) := by
  rw [writeWord, setBitOf_bit _ (by omega), clearBitOf_bit _ (by omega),
    withWlen_bit c h1 h4 hj]

theorem readWord_bit (p : ReadLen) (c : Word) {len : Int} (h1 : 1 ≤ len) (h4 : len ≤ 4)
    {j : Nat} (hj : 4 ≤ j) :
    (readWord p c len).getLsbD j =
      (!decide (j = 5) && (!decide (j = 4) && c.getLsbD j)) := by
  rw [readWord, clearBitOf_bit _ (by omega), clearBitOf_bit _ (by omega),
    withRlen_bit p c h1 h4 hj]

/-! ### The access lists (R141 to R143) -/

theorem enabledIdle_iff {s : State} :
    s.enabledIdle = true ↔ s.engine = .idle ∧ ctrlStart s.ctrl = false ∧
      ctrlEn s.ctrl = true ∧ ctrlDswap s.ctrl = false := by
  simp [State.enabledIdle, State.cleanStart, and_assoc]

theorem enableAccesses_eq {s : State} (h : s.engine = .idle) (hs : ctrlStart s.ctrl = false) :
    enableAccesses s = .ok ()
      { s with
        ctrl := clearBitOf (setBitOf s.ctrl 31) 24, status := clearFlags s.status,
        stepIdx := s.stepIdx + 5, tick := s.tick + 5 } := by
  have h1 : ctrlStart (setBitOf s.ctrl 31) = false := by
    rw [ctrlStart, setBitOf_bit _ (by omega)]; simpa [ctrlStart] using hs
  have h2 : ctrlStart (clearBitOf (setBitOf s.ctrl 31) 24) = false := by
    rw [ctrlStart, clearBitOf_bit _ (by omega)]; simpa [ctrlStart] using h1
  rw [enableAccesses, setBit_ctrl_store h h1, counted_ok, bind_ok,
    clearBit_ctrl_store (by simpa using h) (by simpa using h2), counted_ok, bind_ok]
  rw [show Config.statusClearLiteral = 0x00000003#32 from rfl,
    writeReg_status_clear (by simpa using h)]
  rfl

/-- TWI.WRITE's ten accesses: the registers written and the start accepted. -/
theorem writeAccesses_eq {s : State} (slave data : Word) {len : Int} (h : s.enabledIdle = true)
    (h1 : 1 ≤ len) (h4 : len ≤ 4) :
    writeAccesses slave len data s = .ok ()
      (accept (setBitOf (writeWord s.ctrl len) 6)
        { s with
          ctrl := writeWord s.ctrl len, addr := slave, dout := data,
          stepIdx := s.stepIdx + 10, tick := s.tick + 10 }) := by
  obtain ⟨hi, hs, he, hd⟩ := enabledIdle_iff.1 h
  have a1 : ctrlStart (withWlen s.ctrl len) = false := by
    rw [ctrlStart, withWlen_bit _ h1 h4 (by omega)]; exact hs
  have a2 : ctrlStart (clearBitOf (withWlen s.ctrl len) 5) = false := by
    rw [ctrlStart, clearBitOf_bit _ (by omega)]; simpa [ctrlStart] using a1
  have a3 : ctrlStart (writeWord s.ctrl len) = false := by
    rw [ctrlStart, writeWord_bit _ h1 h4 (by omega)]; simpa [ctrlStart] using hs
  have e1 : ctrlEn (writeWord s.ctrl len) = true := by
    rw [ctrlEn, writeWord_bit _ h1 h4 (by omega)]; simpa [ctrlEn] using he
  have e2 : ctrlDswap (writeWord s.ctrl len) = false := by
    rw [ctrlDswap, writeWord_bit _ h1 h4 (by omega)]; simpa [ctrlDswap] using hd
  have e3 : ctrlRo (writeWord s.ctrl len) = false := by
    rw [ctrlRo, writeWord_bit _ h1 h4 (by omega)]; rfl
  rw [writeAccesses, readReg_ctrl_idle hi, counted_ok, bind_ok,
    writeReg_ctrl_store (by simpa using hi) a1, counted_ok, bind_ok,
    clearBit_ctrl_store (by simpa using hi) (by simpa using a2), counted_ok, bind_ok,
    setBit_ctrl_store (by simpa using hi) (by simpa [writeWord] using a3), counted_ok, bind_ok,
    writeReg_dout_idle (by simpa using hi), counted_ok, bind_ok,
    writeReg_addr_idle (by simpa using hi), counted_ok, bind_ok,
    setBit_ctrl_trigger (by simpa using hi) (by simpa [writeWord] using e1)
      (by simpa [writeWord] using e2) (by simpa [writeWord] using e3), counted_ok]
  rfl

/-- TWI.READ's nine accesses: ADDR written and the start accepted. -/
theorem readAccesses_eq {s : State} (slave : Word) {len : Int} (h : s.enabledIdle = true)
    (h1 : 1 ≤ len) (h4 : len ≤ 4) :
    readAccesses slave len s = .ok ()
      (accept (setBitOf (readWord s.cfg.readLen s.ctrl len) 6)
        { s with
          ctrl := readWord s.cfg.readLen s.ctrl len, addr := slave,
          stepIdx := s.stepIdx + 9, tick := s.tick + 9 }) := by
  obtain ⟨hi, hs, he, hd⟩ := enabledIdle_iff.1 h
  have a1 : ctrlStart (withRlen s.cfg.readLen s.ctrl len) = false := by
    rw [ctrlStart, withRlen_bit _ _ h1 h4 (by omega)]; exact hs
  have a2 : ctrlStart (clearBitOf (withRlen s.cfg.readLen s.ctrl len) 4) = false := by
    rw [ctrlStart, clearBitOf_bit _ (by omega)]; simpa [ctrlStart] using a1
  have a3 : ctrlStart (readWord s.cfg.readLen s.ctrl len) = false := by
    rw [ctrlStart, readWord_bit _ _ h1 h4 (by omega)]; simpa [ctrlStart] using hs
  have e1 : ctrlEn (readWord s.cfg.readLen s.ctrl len) = true := by
    rw [ctrlEn, readWord_bit _ _ h1 h4 (by omega)]; simpa [ctrlEn] using he
  have e2 : ctrlDswap (readWord s.cfg.readLen s.ctrl len) = false := by
    rw [ctrlDswap, readWord_bit _ _ h1 h4 (by omega)]; simpa [ctrlDswap] using hd
  have e3 : ctrlRo (readWord s.cfg.readLen s.ctrl len) = false := by
    rw [ctrlRo, readWord_bit _ _ h1 h4 (by omega)]; rfl
  rw [readAccesses, readReg_ctrl_idle hi, counted_ok, bind_ok,
    writeReg_ctrl_store (by simpa using hi) (by simpa using a1), counted_ok, bind_ok,
    clearBit_ctrl_store (by simpa using hi) (by simpa using a2), counted_ok, bind_ok,
    clearBit_ctrl_store (by simpa using hi) (by simpa [readWord] using a3), counted_ok, bind_ok,
    writeReg_addr_idle (by simpa using hi), counted_ok, bind_ok,
    setBit_ctrl_trigger (by simpa using hi) (by simpa [readWord] using e1)
      (by simpa [readWord] using e2) (by simpa [readWord] using e3), counted_ok]
  rfl

/-! ### The poll (R144, R145) -/

theorem getBit_status (n : Nat) (s : State) :
    getBit .status n s = .ok ((statusWord (engineTurn s).status).getLsbD n)
      (tickOn (engineTurn s)) :=
  getBit_eq_ok.2 ⟨rfl, rfl⟩

/-- One poll: one read of STATUS and nothing else. -/
theorem pollLoop_succ (k : Nat) (s : State) :
    pollLoop (k + 1) s =
      if (engineTurn s).status.done = true then
        .ok true { engineTurn s with
          tick := s.tick + 1, stepIdx := s.stepIdx + 1, polls := s.polls + 1 }
      else pollLoop k { engineTurn s with
          tick := s.tick + 1, stepIdx := s.stepIdx + 1, polls := s.polls + 1 } := by
  rw [pollLoop, getBit_status, counted_ok, bind_ok, statusWord_done]
  simp [countSteps, tickOn]

/-- `k` polls while the engine holds and the done flag is 0. -/
theorem pollLoop_hold {c : Latched} (m : Nat) (rest : List EnvMove) :
    ∀ (k : Nat) (s : State), s.engine = .pending c → s.status.done = false →
      s.env = List.replicate k .hold ++ rest →
      pollLoop (k + m) s = pollLoop m
        { s with
          env := rest, tick := s.tick + k, stepIdx := s.stepIdx + k, polls := s.polls + k } := by
  intro k
  induction k with
  | zero =>
    intro s _ _ he
    have : s.env = rest := by simpa using he
    rw [Nat.zero_add, ← this]
    rfl
  | succ k ih =>
    intro s hc hd he
    have he' : s.env = .hold :: (List.replicate k .hold ++ rest) := by
      simpa [List.replicate_succ] using he
    rw [show k + 1 + m = (k + m) + 1 by omega, pollLoop_succ, engineTurn_hold hc he']
    simp only [hd, Bool.false_eq_true, if_false]
    refine (ih _ ?_ ?_ ?_).trans ?_
    · exact hc
    · exact hd
    · rfl
    · simp [Nat.add_assoc, Nat.add_comm 1 k]

/-- All polls while the block is IDLE and the done flag is 0. -/
theorem pollLoop_idle :
    ∀ (k : Nat) (s : State), s.engine = .idle → s.status.done = false →
      pollLoop k s = .ok false
        { s with tick := s.tick + k, stepIdx := s.stepIdx + k, polls := s.polls + k } := by
  intro k
  induction k with
  | zero => intro s _ _; rfl
  | succ k ih =>
    intro s hi hd
    rw [pollLoop_succ, engineTurn_idle hi]
    simp only [hd, Bool.false_eq_true, if_false]
    refine (ih _ ?_ ?_).trans ?_
    · exact hi
    · exact hd
    · simp [Nat.add_assoc, Nat.add_comm 1 k]

/-- The error check always answers (R145). -/
theorem errorCheck_eq (s : State) :
    errorCheck s =
      if (engineTurn s).status.err = true then
        (let u := countSteps 1 (tickOn (engineTurn s))
         .ok false (raiseFatal (.protocolError (engineTurn u).status.code)
          (countSteps 1 (tickOn (engineTurn u)))))
      else .ok true (countSteps 1 (tickOn (engineTurn s))) := by
  rw [errorCheck, getBit_status, counted_ok, bind_ok, statusWord_err]
  simp [readReg, readValue]

/-- The bounded wait always answers, after at most `k` polls, and leaves the sequencer's other state
alone. -/
theorem pollLoop_total :
    ∀ (k : Nat) (s : State), ∃ d t, pollLoop k s = .ok d t ∧
      t.polls ≤ s.polls + k ∧ (d = false → t.polls = s.polls + k) ∧
      t.seq = s.seq ∧ t.value = s.value ∧ t.errCode = s.errCode ∧ t.errClass = s.errClass ∧
      t.halt = s.halt ∧ t.exitCode = s.exitCode ∧ t.program = s.program ∧ t.cfg = s.cfg := by
  intro k
  induction k with
  | zero => intro s; exact ⟨false, s, rfl, by simp⟩
  | succ k ih =>
    intro s
    rw [pollLoop_succ]
    split
    · exact ⟨true, _, rfl, by simp⟩
    · obtain ⟨d, t, h, hp⟩ := ih { engineTurn s with
          tick := s.tick + 1, stepIdx := s.stepIdx + 1, polls := s.polls + 1 }
      refine ⟨d, t, h, ?_⟩
      simp only [engineTurn_seq, engineTurn_value, engineTurn_errCode, engineTurn_errClass,
        engineTurn_halt, engineTurn_exitCode, engineTurn_program, engineTurn_cfg] at hp
      refine ⟨by omega, fun hd => by have := hp.2.1 hd; omega, hp.2.2⟩

end Sys2Proof.Machine
end

