-- ==== Sys2Proof/Laws/Invariant.lean ====
section
/-! SUPPORT. The register block's part of the invariant through every access, and the sequencer's fields
through every sequenced operation's accesses (spec/10_state.md R16, R21; spec/43_sequencer.md R144). -/

namespace Sys2Proof.Machine

/-- The part of the invariant that is about the register block. -/
def blockInv (s : State) : Prop := s.engineMatchesCtrl ∧ s.dinBytes ≤ 4

theorem commandLength_le (p : ReadLen) (v : Word) : commandLength p v ≤ 4 := by
  have h1 : ctrlWlen v < 4 := (v.extractLsb' 2 2).isLt
  have h2 : ctrlRlen v < 4 := (v.extractLsb' 0 2).isLt
  unfold commandLength
  split
  · omega
  · split <;> omega

/-- The block's invariant reads these fields only. -/
theorem blockInv_congr {s t : State} (h : blockInv s) (h1 : t.ctrl = s.ctrl) (h2 : t.addr = s.addr)
    (h3 : t.dout = s.dout) (h4 : t.dinBytes = s.dinBytes) (h5 : t.engine = s.engine)
    (h6 : t.cfg = s.cfg) : blockInv t := by
  unfold blockInv State.engineMatchesCtrl at *
  rw [h1, h2, h3, h4, h5, h6]
  exact h

theorem complete_blockInv {s : State} {c : Latched} (w : WriteAnswer) (r : ReadAnswer)
    (hn : c.n ≤ 4) : blockInv (complete c w r s) := by
  refine ⟨ctrlStart_clear _, ?_⟩
  rw [complete_dinBytes]
  unfold completedDinBytes
  cases c.kind with
  | write => exact Nat.zero_le 4
  | read =>
    cases r with
    | data b0 b1 b2 b3 => exact hn
    | err code => exact Nat.zero_le 4

theorem engineTurn_blockInv {s : State} (h : blockInv s) : blockInv (engineTurn s) := by
  rcases engineTurn_cases s with ⟨-, e⟩ | ⟨c, hc, e | ⟨w, r, e⟩⟩ <;> rw [e]
  · exact h
  · exact blockInv_congr h rfl rfl rfl rfl rfl rfl
  · have hm := h.1
    unfold State.engineMatchesCtrl at hm
    rw [hc] at hm
    exact complete_blockInv w r (by rw [hm.2.2.2.2]; exact commandLength_le _ _)

theorem readReg_blockInv {x : Reg} {s t : State} {w : Word} (h : readReg x s = .ok w t)
    (hi : blockInv s) : blockInv t := by
  obtain ⟨-, rfl⟩ := readReg_eq_ok.1 h
  exact blockInv_congr (engineTurn_blockInv hi) rfl rfl rfl rfl rfl rfl

theorem writeReg_blockInv {x : Reg} {v : Word} {s t : State} (h : writeReg x v s = .ok () t)
    (hi : blockInv s) : blockInv t := by
  obtain ⟨he, u, hu, rfl⟩ := writeReg_eq_ok h
  have hb := engineTurn_blockInv hi
  have hs : ctrlStart (engineTurn s).ctrl = false := by
    have := hb.1
    unfold State.engineMatchesCtrl at this
    rw [he] at this
    exact this
  refine blockInv_congr (s := u) ?_ rfl rfl rfl rfl rfl rfl
  rcases writeIdle_eq_ok hu with ⟨-, hv, rfl⟩ | ⟨-, h1, h2, h3, h4, rfl⟩ | ⟨-, rfl⟩ | ⟨-, rfl⟩ |
    ⟨-, -, rfl⟩
  all_goals refine ⟨?_, hb.2⟩
  all_goals simp only [State.engineMatchesCtrl]
  · rw [he]; exact hv
  · exact ⟨h1, h2, h3, h4, rfl⟩
  · rw [he]; exact hs
  · rw [he]; exact hs
  · rw [he]; exact hs

/-- What an operation keeps, whatever it answers. -/
def keeps (P : State → Prop) {α : Type} (f : State → Run α) : Prop :=
  ∀ (s t : State) (a : α), f s = .ok a t → P s → P t

theorem keeps_bind {P : State → Prop} {α β : Type} {f : State → Run α}
    {g : α → State → Run β} (hf : keeps P f) (hg : ∀ a, keeps P (g a)) :
    keeps P fun s => (f s).bind g := by
  intro s t b h hp
  obtain ⟨a, u, h1, h2⟩ := bind_eq_ok.1 h
  exact hg a u t b h2 (hf s u a h1 hp)

theorem keeps_counted {α : Type} (k : Nat) {f : State → Run α} (hf : keeps blockInv f) :
    keeps blockInv fun s => counted k (f s) := by
  intro s t a h hp
  obtain ⟨u, h1, rfl⟩ := counted_eq_ok.1 h
  exact blockInv_congr (hf s u a h1 hp) rfl rfl rfl rfl rfl rfl

theorem setBit_blockInv (x : Reg) (n : Nat) : keeps blockInv (setBit x n) :=
  keeps_bind (fun _ _ _ h => readReg_blockInv h) fun _ _ _ _ h => writeReg_blockInv h

theorem clearBit_blockInv (x : Reg) (n : Nat) : keeps blockInv (clearBit x n) :=
  keeps_bind (fun _ _ _ h => readReg_blockInv h) fun _ _ _ _ h => writeReg_blockInv h

theorem getBit_blockInv (x : Reg) (n : Nat) : keeps blockInv (getBit x n) := by
  refine keeps_bind (fun _ _ _ h => readReg_blockInv h) fun w s t b h hp => ?_
  cases h
  exact hp

theorem pollLoop_blockInv : ∀ k, keeps blockInv (pollLoop k) := by
  intro k
  induction k with
  | zero =>
    intro s t d h hp
    cases h
    exact hp
  | succ k ih =>
    refine keeps_bind (keeps_counted 1 (getBit_blockInv .status 1)) fun d s t b h hp => ?_
    cases d with
    | true =>
      cases h
      exact blockInv_congr hp rfl rfl rfl rfl rfl rfl
    | false => exact ih _ t b h (blockInv_congr hp rfl rfl rfl rfl rfl rfl)

theorem raiseFatal_blockInv {kind : Fatal} {s : State} (h : blockInv s) :
    blockInv (raiseFatal kind s) := by
  cases kind <;> exact blockInv_congr h rfl rfl rfl rfl rfl rfl

theorem errorCheck_blockInv : keeps blockInv errorCheck := by
  refine keeps_bind (keeps_counted 1 (getBit_blockInv .status 0)) fun e s t b h hp => ?_
  cases e with
  | false =>
    cases h
    exact hp
  | true =>
    rw [if_pos rfl] at h
    obtain ⟨w, u, h1, h2⟩ := bind_eq_ok.1 h
    cases h2
    exact raiseFatal_blockInv
      (keeps_counted 1 (fun _ _ _ h => readReg_blockInv h) s u w h1 hp)

theorem poll_blockInv : keeps blockInv poll := by
  intro s t b h hp
  obtain ⟨d, u, h1, h2⟩ := bind_eq_ok.1 h
  have hu : blockInv u := pollLoop_blockInv _ _ u d h1 (blockInv_congr hp rfl rfl rfl rfl rfl rfl)
  cases d with
  | true => exact errorCheck_blockInv u t b h2 hu
  | false =>
    cases h2
    exact raiseFatal_blockInv hu

/-- What the poll does to the sequencer (R144, R145): it always answers, within the bound; done leaves
`seq` and the outputs as they were, otherwise one fatal outcome is recorded. -/
theorem poll_total (s : State) :
    ∃ d t, poll s = .ok d t ∧ t.polls ≤ s.cfg.pollBound ∧ t.value = s.value ∧
      t.program = s.program ∧ t.cfg = s.cfg ∧
      ((d = true ∧ t.seq = s.seq ∧ t.halt = s.halt ∧ t.exitCode = s.exitCode ∧
          t.errCode = s.errCode ∧ t.errClass = s.errClass) ∨
        (d = false ∧ t.seq = .error ∧ t.halt = true ∧ t.exitCode = .error ∧
          t.errClass = decodeClass t.errCode) ∨
        (d = false ∧ t.seq = .timeout ∧ t.halt = true ∧ t.exitCode = .timeout ∧
          t.polls = s.cfg.pollBound ∧ t.errCode = s.errCode ∧ t.errClass = s.errClass)) := by
  obtain ⟨d, u, h, hp, hpf, h1, h2, h3, h4, h5, h6, h7, h8⟩ :=
    pollLoop_total s.cfg.pollBound { s with polls := 0 }
  rw [poll, h, bind_ok]
  simp only [Nat.zero_add] at hp hpf
  cases d with
  | false =>
    exact ⟨false, _, rfl, hp, h2, h7, h8, .inr (.inr ⟨rfl, rfl, rfl, rfl, hpf rfl, h3, h4⟩)⟩
  | true =>
    simp only [if_true]
    rw [errorCheck_eq]
    split
    · refine ⟨false, _, rfl, ?_, ?_, ?_, ?_, .inr (.inl ⟨rfl, rfl, rfl, rfl, ?_⟩)⟩ <;>
        simp [hp, h2, h7, h8]
    · refine ⟨true, _, rfl, ?_, ?_, ?_, ?_, .inl ⟨rfl, ?_, ?_, ?_, ?_, ?_⟩⟩ <;>
        simp [hp, h1, h2, h3, h4, h5, h6, h7, h8]

end Sys2Proof.Machine
end

