-- ==== Sys2Proof/Laws/Events.lean ====
section
/-! SUPPORT. The commands as the port and the decoder see them: an access issued at a register's offset
is that register's operation, and what is no operation never answers (spec/30_encoding.md R69, R70); and what runs keep. -/

namespace Sys2Proof.Machine

theorem exec_decodeRead (x : Reg) (s : State) : exec (decodeRead x) s = readCommand x s := by
  cases x <;> rfl

theorem exec_decodeCtrlWrite {v : Word} {i : Instr} (s : State)
    (h : decodeCtrlWrite v = .ok i) : exec i s = writeCommand .ctrl v s := by
  unfold decodeCtrlWrite at h
  split at h
  · cases h; rfl
  split at h
  · cases h; rfl
  split at h
  · cases h; rfl
  · cases h

theorem exec_decodeWrite {x : Reg} {v : Word} {i : Instr} (s : State)
    (h : decodeWrite x v = .ok i) : exec i s = writeCommand x v s := by
  cases x with
  | ctrl => exact exec_decodeCtrlWrite s h
  | addr => cases h; rfl
  | dout => cases h; rfl
  | din => cases h
  | status =>
    simp only [decodeWrite] at h
    split at h
    · rename_i hv; cases h; rw [hv]; rfl
    · cases h

/-- A 32-bit read at a register's offset is the register's read operation (R69). -/
theorem issueCommand_read (x : Reg) (s : State) :
    issueCommand (.read Config.regWidth (regOffset x)) s = readCommand x s := by
  have h : decode (.read Config.regWidth (regOffset x)) = .ok (decodeRead x) := by
    simp [decode]
  rw [issueCommand, h]
  exact exec_decodeRead x s

/-- A 32-bit write at a register's offset follows the register's rule, whether or not the value makes it
an operation of the table (R69, R70). -/
theorem issueCommand_write (x : Reg) (v : Word) (s : State) :
    issueCommand (.write Config.regWidth (regOffset x) v) s = writeCommand x v s := by
  have h : decode (.write Config.regWidth (regOffset x) v) = decodeWrite x v := by
    simp [decode]
  rw [issueCommand, h]
  cases hd : decodeWrite x v with
  | ok i => exact exec_decodeWrite s hd
  | error r => rfl

/-- A read command answers in both phases (R92). -/
theorem readCommand_ready (x : Reg) {s : State} (h : s.ready = true) :
    readCommand x s =
      .next { engineTurn s with
        tick := s.tick + 1, result := .word (readValue x (engineTurn s)) } := by
  rw [readCommand, command_ready _ h]
  simp [readReg, finish, tickOn]

/-- A write command while PENDING faults (R90). -/
theorem writeCommand_pending (x : Reg) (v : Word) {s : State} (h : s.ready = true)
    (hc : (engineTurn s).engine ≠ .idle) : writeCommand x v s = .fault .writeWhilePending := by
  cases he : (engineTurn s).engine with
  | idle => exact absurd he hc
  | pending c =>
    rw [writeCommand, command_ready _ h]
    simp [writeReg_pending x v he, finish]

/-- A write command while IDLE follows the register's rule. -/
theorem writeCommand_idle (x : Reg) (v : Word) {s : State} (h : s.ready = true)
    (hc : (engineTurn s).engine = .idle) :
    writeCommand x v s =
      finish ((writeIdle x v (engineTurn s)).bind fun _ t => .ok .nothing (tickOn t)) := by
  rw [writeCommand, command_ready _ h]
  simp only [writePort_regOffset, writeReg, hc]
  cases writeIdle x v (engineTurn s) <;> rfl

/-! ### Runs -/

/-- What every step keeps holds in each state of a run that begins with it. -/
theorem run_invariant (M : Host.Core) (P : M.State → Prop)
    (hstep : ∀ s t, P s → M.step s = .next t → P t) (k : Nat) :
    ∀ s t, P s → M.run k s = .next t → P t := by
  induction k with
  | zero =>
    intro s t h e
    cases e
    exact h
  | succ k ih =>
    intro s t h e
    simp only [Host.Core.run] at e
    split at e
    · rename_i u hu
      exact ih u t (hstep s u h hu) e
    · cases e
    · cases e

end Sys2Proof.Machine
end

