-- ==== Sys2Proof/Laws/Transfers.lean ====
section
/-! SUPPORT. TWI.WRITE and TWI.READ up to their poll, and the poll's endings, said once each
(spec/43_sequencer.md R142 to R145), with the byte lanes of a value read (spec/20_memory.md R47). -/

namespace Sys2Proof.Machine

/-- Every operation is a command: it passes the check of R147 first. -/
theorem exec_is_command (i : Instr) : ∃ k, ∀ s, exec i s = command k s := by
  cases i <;> exact ⟨_, fun _ => rfl⟩

/-! ### The command latched (R65, R114) -/

theorem extract_two_congr {a b : Word} {i j : Nat} (h0 : a.getLsbD i = b.getLsbD j)
    (h1 : a.getLsbD (i + 1) = b.getLsbD (j + 1)) : a.extractLsb' i 2 = b.extractLsb' j 2 := by
  apply BitVec.eq_of_getLsbD_eq
  intro k hk
  have : k = 0 ∨ k = 1 := by omega
  rw [BitVec.getLsbD_extractLsb', BitVec.getLsbD_extractLsb']
  rcases this with rfl | rfl
  · simpa [-BitVec.getLsbD_eq_getElem] using h0
  · simpa [-BitVec.getLsbD_eq_getElem] using h1

theorem lengthField_value {len : Int} (h1 : 1 ≤ len) (h4 : len ≤ 4) :
    ((lengthField len).extractLsb' 0 2).toNat + 1 = len.toNat := by
  have : len = 1 ∨ len = 2 ∨ len = 3 ∨ len = 4 := by omega
  rcases this with rfl | rfl | rfl | rfl <;> rfl

/-- A word with the low bits of `withWlen c len` has that write length. -/
theorem ctrlWlen_of_low (c : Word) {len : Int} (h1 : 1 ≤ len) (h4 : len ≤ 4) {v : Word}
    (h : ∀ j, j < 4 → v.getLsbD j = (withWlen c len).getLsbD j) :
    ctrlWlen v + 1 = len.toNat := by
  rw [← lengthField_value h1 h4, ctrlWlen, extract_two_congr (b := lengthField len) (j := 0)]
  · rw [h 2 (by omega)]
    simp [withWlen, -BitVec.getLsbD_eq_getElem, BitVec.getLsbD_or, BitVec.getLsbD_and,
      BitVec.getLsbD_shiftLeft]
  · rw [h 3 (by omega)]
    simp [withWlen, -BitVec.getLsbD_eq_getElem, BitVec.getLsbD_or, BitVec.getLsbD_and,
      BitVec.getLsbD_shiftLeft]

/-- A word with the low bits of `withRlen .lsb0 c len` has that read length. -/
theorem ctrlRlen_of_low (c : Word) {len : Int} (h1 : 1 ≤ len) (h4 : len ≤ 4) {v : Word}
    (h : ∀ j, j < 4 → v.getLsbD j = (withRlen .lsb0 c len).getLsbD j) :
    ctrlRlen v + 1 = len.toNat := by
  rw [← lengthField_value h1 h4, ctrlRlen, extract_two_congr (b := lengthField len) (j := 0)]
  · rw [h 0 (by omega)]
    simp [withRlen, -BitVec.getLsbD_eq_getElem, BitVec.getLsbD_or, BitVec.getLsbD_and]
  · rw [h 1 (by omega)]
    simp [withRlen, -BitVec.getLsbD_eq_getElem, BitVec.getLsbD_or, BitVec.getLsbD_and]

theorem latch_writeWord (p : ReadLen) (c a d : Word) {len : Int} (h1 : 1 ≤ len) (h4 : len ≤ 4) :
    latch p (setBitOf (writeWord c len) 6) a d =
      { kind := .write, n := len.toNat, slave := a, data := d } := by
  have hw : ctrlWe (setBitOf (writeWord c len) 6) = true := by
    rw [ctrlWe, setBitOf_bit _ (by omega), writeWord_bit c h1 h4 (by omega)]; rfl
  have hl : ctrlWlen (setBitOf (writeWord c len) 6) + 1 = len.toNat := by
    refine ctrlWlen_of_low c h1 h4 fun j hj => ?_
    rw [setBitOf_bit _ (by omega), writeWord, setBitOf_bit _ (by omega),
      clearBitOf_bit _ (by omega)]
    simp [show j ≠ 6 by omega, show j ≠ 5 by omega, show j ≠ 4 by omega]
  simp [latch, commandLength, hw, hl]

theorem latch_readWord (p : ReadLen) (c a d : Word) {len : Int} (h1 : 1 ≤ len) (h4 : len ≤ 4) :
    latch p (setBitOf (readWord p c len) 6) a d =
      { kind := .read, n := len.toNat, slave := a, data := d } := by
  have hw : ctrlWe (setBitOf (readWord p c len) 6) = false := by
    rw [ctrlWe, setBitOf_bit _ (by omega), readWord_bit p c h1 h4 (by omega)]; rfl
  have hl : ∀ j, j < 4 →
      (setBitOf (readWord p c len) 6).getLsbD j = (withRlen p c len).getLsbD j := by
    intro j hj
    rw [setBitOf_bit _ (by omega), readWord, clearBitOf_bit _ (by omega),
      clearBitOf_bit _ (by omega)]
    simp [show j ≠ 6 by omega, show j ≠ 5 by omega, show j ≠ 4 by omega]
  cases p with
  | lsb0 => simp [latch, commandLength, hw, ctrlRlen_of_low c h1 h4 hl]
  | lsb2 => simp [latch, commandLength, hw, ctrlWlen_of_low c h1 h4 hl]

/-! ### CTRL after the trigger and after the completion, in the masks of R142 and R143 -/

theorem writeWord_eq (c : Word) (len : Int) :
    writeWord c len =
      (((c &&& 0xFFFFFFF3#32) ||| (BitVec.ofInt 32 (len - 1) <<< 2)) &&& 0xFFFFFFDF#32) |||
        0x00000010#32 := rfl

theorem writeWord_triggered (c : Word) (len : Int) :
    setBitOf (writeWord c len) 6 =
      (((c &&& 0xFFFFFFF3#32) ||| (BitVec.ofInt 32 (len - 1) <<< 2)) &&& 0xFFFFFFDF#32) |||
        0x00000050#32 := by
  unfold writeWord setBitOf clearBitOf withWlen lengthField
  rw [BitVec.or_assoc]
  rfl

theorem readWord_eq (p : ReadLen) (c : Word) (len : Int) :
    readWord p c len =
      (match p with
        | .lsb0 => (c &&& 0xFFFFFFFC#32) ||| BitVec.ofInt 32 (len - 1)
        | .lsb2 => (c &&& 0xFFFFFFF3#32) ||| (BitVec.ofInt 32 (len - 1) <<< 2)) &&&
          0xFFFFFFCF#32 := by
  unfold readWord clearBitOf
  rw [BitVec.and_assoc]
  cases p <;> rfl

/-- Completion clears the START bit that the trigger set (R116). -/
theorem clearBitOf_setBitOf {v : Word} (h : ctrlStart v = false) :
    clearBitOf (setBitOf v 6) 6 = v := by
  apply BitVec.eq_of_getLsbD_eq
  intro j hj
  rw [clearBitOf_bit _ (by omega), setBitOf_bit _ (by omega)]
  by_cases hj6 : j = 6
  · subst hj6
    rw [ctrlStart] at h
    rw [h]
    rfl
  · simp [hj6]

theorem ctrlStart_writeWord {c : Word} {len : Int} (h1 : 1 ≤ len) (h4 : len ≤ 4)
    (h : ctrlStart c = false) : ctrlStart (writeWord c len) = false := by
  rw [ctrlStart] at *
  rw [writeWord_bit c h1 h4 (by omega), h]
  rfl

theorem ctrlStart_readWord {p : ReadLen} {c : Word} {len : Int} (h1 : 1 ≤ len) (h4 : len ≤ 4)
    (h : ctrlStart c = false) : ctrlStart (readWord p c len) = false := by
  rw [ctrlStart] at *
  rw [readWord_bit p c h1 h4 (by omega), h]
  rfl

/-! ### The operations up to their poll -/

/-- The state in which TWI.WRITE begins its poll (R142). -/
def writeStarted (slave : Word) (len : Int) (data : Word) (s : State) : State :=
  { s with
    seq := .writePending, ctrl := setBitOf (writeWord s.ctrl len) 6, addr := slave, dout := data,
    engine := .pending { kind := .write, n := len.toNat, slave := slave, data := data },
    status := acceptedFlags s.cfg s.status, stepIdx := 10, tick := s.tick + 10 }

/-- The state in which TWI.READ begins its poll (R143). -/
def readStarted (slave : Word) (len : Int) (s : State) : State :=
  { s with
    seq := .readPending, ctrl := setBitOf (readWord s.cfg.readLen s.ctrl len) 6, addr := slave,
    engine := .pending { kind := .read, n := len.toNat, slave := slave, data := s.dout },
    status := acceptedFlags s.cfg s.status, stepIdx := 9, tick := s.tick + 9 }

theorem transferReady_ready {s : State} (h : s.transferReady = true) :
    s.ready = true ∧ s.seq ≠ .uninitialized := by
  simp only [State.transferReady, Bool.or_eq_true, beq_iff_eq] at h
  rcases h with h | h <;> simp [ready_iff, h, seqHalted, seqBusy]

theorem requireTransfer_ok {α : Type} {s : State} {len : Int} (k : Run α)
    (h : s.transferReady = true) (h1 : 1 ≤ len) (h4 : len ≤ 4) : requireTransfer len s k = k := by
  rw [requireTransfer, if_neg (transferReady_ready h).2, if_pos ⟨h1, h4⟩]

theorem twiWrite_start {s : State} {slave data : Word} {len : Int} (ht : s.transferReady = true)
    (he : s.enabledIdle = true) (h1 : 1 ≤ len) (h4 : len ≤ 4) :
    exec (.twiWrite slave len data) s =
      finish ((poll (writeStarted slave len data s)).bind fun d t =>
        if d then .ok .nothing { t with seq := .done } else .ok .nothing t) := by
  show execTwiWrite _ _ _ _ = _
  rw [execTwiWrite, command_ready _ (transferReady_ready ht).1, requireTransfer_ok _ ht h1 h4,
    writeAccesses_eq slave data (by exact he) h1 h4, bind_ok, accept, latch_writeWord _ _ _ _ h1 h4]
  simp only [beginOperation, Nat.zero_add, writeStarted]

theorem twiRead_start {s : State} {slave : Word} {len : Int} (ht : s.transferReady = true)
    (he : s.enabledIdle = true) (h1 : 1 ≤ len) (h4 : len ≤ 4) :
    exec (.twiRead slave len) s =
      finish ((poll (readStarted slave len s)).bind fun d t =>
        if d then
          (counted 1 (readReg .din t)).bind fun w u =>
            .ok (.word w) { u with value := w, seq := .done }
        else .ok .nothing t) := by
  show execTwiRead _ _ _ = _
  rw [execTwiRead, command_ready _ (transferReady_ready ht).1, requireTransfer_ok _ ht h1 h4,
    readAccesses_eq slave (by exact he) h1 h4, bind_ok, accept]
  simp only [beginOperation, Nat.zero_add, latch_readWord _ _ _ _ h1 h4, readStarted]

/-! ### The poll's endings -/

/-- The error check while IDLE. -/
theorem errorCheck_idle {s : State} (h : s.engine = .idle) :
    errorCheck s =
      if s.status.err = true then
        .ok false
          { s with
            errCode := s.status.code, errClass := decodeClass s.status.code, seq := .error,
            exitCode := .error, halt := true, stepIdx := s.stepIdx + 2, tick := s.tick + 2 }
      else .ok true { s with stepIdx := s.stepIdx + 1, tick := s.tick + 1 } := by
  have hu : engineTurn (countSteps 1 (tickOn s)) = countSteps 1 (tickOn s) := engineTurn_idle h
  rw [errorCheck_eq, engineTurn_idle h]
  simp only [hu]
  rfl

/-- The transaction completes before poll `k + 1` and sets the done flag. -/
theorem poll_completes {c : Latched} {w : WriteAnswer} {r : ReadAnswer} {k : Nat}
    {rest : List EnvMove} {s : State} (hc : s.engine = .pending c) (hd : s.status.done = false)
    (he : s.env = List.replicate k .hold ++ .move w r :: rest) (hk : k < s.cfg.pollBound)
    (hdone : (completedFlags s.cfg s.status (failureCode c w r)).done = true) :
    poll s = errorCheck
      { complete c w r { s with env := rest, tick := s.tick + k } with
        tick := s.tick + k + 1, stepIdx := s.stepIdx + k + 1, polls := k + 1 } := by
  obtain ⟨m, hm⟩ : ∃ m, s.cfg.pollBound = k + (m + 1) := ⟨s.cfg.pollBound - k - 1, by omega⟩
  rw [poll, hm, pollLoop_hold (s := { s with polls := 0 }) (c := c) (m + 1) _ k hc hd he,
    pollLoop_succ, engineTurn_move (c := c) (w := w) (r := r) (rest := rest) (by exact hc) rfl,
    if_pos (by exact hdone), bind_ok, if_pos rfl]
  simp only [Nat.zero_add]
  rfl

/-- The transaction completes before the first poll, whatever the flags were. -/
theorem poll_completes_first {c : Latched} {w : WriteAnswer} {r : ReadAnswer}
    {rest : List EnvMove} {s : State} (hc : s.engine = .pending c) (he : s.env = .move w r :: rest)
    (hk : 0 < s.cfg.pollBound)
    (hdone : (completedFlags s.cfg s.status (failureCode c w r)).done = true) :
    poll s = errorCheck
      { complete c w r { s with env := rest } with
        tick := s.tick + 1, stepIdx := s.stepIdx + 1, polls := 1 } := by
  obtain ⟨m, hm⟩ : ∃ m, s.cfg.pollBound = m + 1 := ⟨s.cfg.pollBound - 1, by omega⟩
  rw [poll, hm, pollLoop_succ, engineTurn_move (s := { s with polls := 0 }) hc he,
    if_pos (by exact hdone), bind_ok, if_pos rfl]
  rfl

/-- The transaction does not complete within the bound. -/
theorem poll_timesOut {c : Latched} {rest : List EnvMove} {s : State}
    (hc : s.engine = .pending c) (hd : s.status.done = false)
    (he : s.env = List.replicate s.cfg.pollBound .hold ++ rest) :
    poll s = .ok false (raiseFatal .timeout
      { s with
        env := rest, tick := s.tick + s.cfg.pollBound,
        stepIdx := s.stepIdx + s.cfg.pollBound, polls := s.cfg.pollBound }) := by
  have h := pollLoop_hold (c := c) 0 rest s.cfg.pollBound { s with polls := 0 } hc hd he
  rw [Nat.add_zero, Nat.zero_add] at h
  rw [poll, h, pollLoop, bind_ok]
  rfl

/-! ### DIN's lanes (R47, R87) -/

theorem readReg_din_idle {s : State} (h : s.engine = .idle) :
    readReg .din s = .ok (overlay s.dinBytes s.din (Config.dinDraw s.tick))
      { s with tick := s.tick + 1 } := by
  rw [readReg_idle _ h]
  simp [readValue, dinValue, h, tickOn]

/-- The first `n` lanes of an overlay are the known word's, the others the free word's. -/
theorem overlay_lane {n : Nat} (hn : n ≤ 4) (a b : Word) {k : Nat} (hk : k < 4) :
    (overlay n a b).extractLsb' (8 * k) 8 =
      if k < n then a.extractLsb' (8 * k) 8 else b.extractLsb' (8 * k) 8 := by
  have hm : ∀ n : Fin 4, ∀ j : Fin 32,
      (bitMask (8 * n.val) - 1#32).getLsbD j.val = decide (j.val < 8 * n.val) := by decide
  unfold overlay
  split
  · simp [show k < n by omega]
  · rename_i h
    apply BitVec.eq_of_getLsbD_eq
    intro j hj
    have hjj : 8 * k + j < 32 := by omega
    rw [BitVec.getLsbD_extractLsb', BitVec.getLsbD_or, BitVec.getLsbD_and, BitVec.getLsbD_and,
      BitVec.getLsbD_not, hm ⟨n, by omega⟩ ⟨8 * k + j, hjj⟩]
    by_cases hkn : k < n
    · simp [show 8 * k + j < 8 * n by omega, hkn, hj, -BitVec.getLsbD_eq_getElem,
        BitVec.getLsbD_extractLsb']
    · simp [show ¬ 8 * k + j < 8 * n by omega, hkn, hj, hjj, -BitVec.getLsbD_eq_getElem,
        BitVec.getLsbD_extractLsb']

theorem overlay_low {n : Nat} (hn : n ≤ 4) (a b : Word) {j : Nat} (hj : j < 8 * n) :
    (overlay n a b).getLsbD j = a.getLsbD j := by
  have h := overlay_lane hn a b (k := j / 8) (by omega)
  rw [if_pos (by omega)] at h
  have hb := congrArg (fun v => v.getLsbD (j % 8)) h
  simp only [BitVec.getLsbD_extractLsb'] at hb
  rw [show 8 * (j / 8) + j % 8 = j by omega] at hb
  simpa [Nat.mod_lt, -BitVec.getLsbD_eq_getElem] using hb

end Sys2Proof.Machine
end

