-- ==== Sys2Proof/Laws/PerInstr.lean ====
section
/-! SUPPORT. Per instruction: the encoding of a well-formed instruction lies on that instruction's row of
the opcode table (spec/30_encoding.md R69, R75). -/

namespace Sys2Proof.Laws.OnItsRow

/-- The encoded form of a well-formed instruction has the kind, the offset or the CMD16 mask and match,
and the operand count, of its row. -/
def Statement (i : Instr) : Prop := i.wellFormed = true → i.row.admits (encode i) = true

/-- An accessor's CMD16 word under the mask of its row. -/
theorem accessor_word (base : BitVec 16) (hb : base &&& 0xF1E0#16 = base) (x : Reg) {n : Int}
    (h : bitIndexOk n = true) : accessorWord base x n &&& 0xF1E0#16 = base := by
  have hn : 0 ≤ n ∧ n ≤ 31 := of_decide_eq_true h
  obtain ⟨k, rfl⟩ : ∃ k : Fin 32, n = (k.val : Int) := ⟨⟨n.toNat, by omega⟩, by simp; omega⟩
  have hz : ∀ x : Reg, ∀ k : Fin 32,
      (BitVec.ofInt 16 (regOffset x / 4) <<< 9) &&& 0xF1E0#16 = 0#16 ∧
        BitVec.ofInt 16 (k.val : Int) &&& 0xF1E0#16 = 0#16 := by
    intro x
    cases x <;> decide
  have hd : ∀ a b m : BitVec 16, (a ||| b) &&& m = (a &&& m) ||| (b &&& m) := by
    intro a b m
    apply BitVec.eq_of_getLsbD_eq
    intro j _
    simp only [BitVec.getLsbD_and, BitVec.getLsbD_or]
    cases a.getLsbD j <;> cases b.getLsbD j <;> cases m.getLsbD j <;> rfl
  rw [accessorWord, hd, hd, hb, (hz x k).1, (hz x k).2]
  simp

theorem ctrlLd : Statement .ctrlLd := fun _ => rfl

theorem ctrlSt (v : Word) : Statement (.ctrlSt v) := by
  intro h
  simpa [Instr.row, encode, wr32, TableRow.admits, regOffset, Instr.wellFormed, isStoreWord] using h

theorem xferW (v : Word) : Statement (.xferW v) := by
  intro h
  simpa [Instr.row, encode, wr32, TableRow.admits, regOffset, Instr.wellFormed, isWriteCommand] using h

theorem xferR (v : Word) : Statement (.xferR v) := by
  intro h
  simpa [Instr.row, encode, wr32, TableRow.admits, regOffset, Instr.wellFormed, isReadCommand] using h

theorem addrLd : Statement .addrLd := fun _ => rfl

theorem addrSt (v : Word) : Statement (.addrSt v) := by
  intro _
  simp [Instr.row, encode, wr32, TableRow.admits, regOffset]

theorem doutLd : Statement .doutLd := fun _ => rfl

theorem doutSt (v : Word) : Statement (.doutSt v) := by
  intro _
  simp [Instr.row, encode, wr32, TableRow.admits, regOffset]

theorem dinLd : Statement .dinLd := fun _ => rfl

theorem statusLd : Statement .statusLd := fun _ => rfl

theorem stclr : Statement .stclr := fun _ => rfl

theorem setb (x : Reg) (n : Int) : Statement (.setb x n) := by
  intro h
  simp [Instr.row, encode, TableRow.admits, accessor_word 0x1000#16 rfl x h]

theorem clrb (x : Reg) (n : Int) : Statement (.clrb x n) := by
  intro h
  simp [Instr.row, encode, TableRow.admits, accessor_word 0x2000#16 rfl x h]

theorem getb (x : Reg) (n : Int) : Statement (.getb x n) := by
  intro h
  simp [Instr.row, encode, TableRow.admits, accessor_word 0x3000#16 rfl x h]

theorem twiEnable : Statement .twiEnable := fun _ => rfl

/-- A length in 1 to 4. -/
theorem length_cases {len : Int} (h : lengthOk len = true) :
    len = 1 ∨ len = 2 ∨ len = 3 ∨ len = 4 := by
  have hl : 1 ≤ len ∧ len ≤ 4 := of_decide_eq_true h
  omega

theorem twiWrite (slave : Word) (len : Int) (data : Word) :
    Statement (.twiWrite slave len data) := by
  intro h
  rcases length_cases h with rfl | rfl | rfl | rfl <;> rfl

theorem twiRead (slave : Word) (len : Int) : Statement (.twiRead slave len) := by
  intro h
  rcases length_cases h with rfl | rfl | rfl | rfl <;> rfl

theorem twiPoll : Statement .twiPoll := fun _ => rfl

theorem twiDecode (code : Byte) : Statement (.twiDecode code) := by
  have h : ∀ code : Byte, (Instr.twiDecode code).row.admits (encode (.twiDecode code)) = true := by
    decide
  exact fun _ => h code

end Sys2Proof.Laws.OnItsRow
end

