-- ==== Sys2Proof/Tests/Slice0.lean ====
section
/-! SUPPORT. Tests against the vectors of spec/95_test_vectors.md (V1 to V114, P1 to P7), decoding against
words written out from spec/30_encoding.md, and a witness for the hypotheses of each obligation. -/

namespace Sys2Proof.Tests

open Sys2Proof.Machine

/-! ### Helpers -/

/-- A part of the next state, none at a stop. -/
def after {α : Type} (o : Host.Outcome State Fault Refusal) (f : State → α) : Option α :=
  match o with
  | .next t => some (f t)
  | _ => none

/-- The refusal, none otherwise. -/
def refusal (o : Host.Outcome State Fault Refusal) : Option Refusal :=
  match o with
  | .refused r => some r
  | _ => none

/-- The fault, none otherwise. -/
def faulted (o : Host.Outcome State Fault Refusal) : Option Fault :=
  match o with
  | .fault f => some f
  | _ => none

/-- What the decoder answers, none where it rejects. -/
def decoded (c : Command) : Option Instr :=
  match decode c with
  | .ok i => some i
  | .error _ => none

/-- Why the decoder rejects, none where it answers. -/
def rejected (c : Command) : Option Reject :=
  match decode c with
  | .ok _ => none
  | .error r => some r

/-- The defaults with a poll bound of 3. -/
def params : Params := { Config.defaults with pollBound := 3 }

/-- The start state of section 2.1 of spec/95_test_vectors.md. -/
def idle : State :=
  { State.reset with
    ctrl := 0x80000010#32, addr := 0x00000049#32, dout := 0x00000007#32,
    status := { code := 0xFF#8, done := true, err := false }, cfg := params }

/-- The state after V5, while PENDING, under an environment's script. -/
def pending (env : List EnvMove) : State :=
  { idle with
    ctrl := 0x80000050#32, status := { code := 0xFF#8, done := false, err := false },
    engine := .pending
      { kind := .write, n := 1, slave := 0x00000049#32, data := 0x00000007#32 },
    env := env }

/-- A read of two bytes pending. -/
def pendingRead (env : List EnvMove) : State :=
  { idle with
    ctrl := 0x80000041#32, status := { code := 0xFF#8, done := false, err := false },
    engine := .pending
      { kind := .read, n := 2, slave := 0x00000049#32, data := 0x00000007#32 },
    env := env }

/-- `seq = ENABLED` with CTRL as TWI.ENABLE leaves it (V96). -/
def enabled (env : List EnvMove) : State :=
  { idle with ctrl := 0x80000000#32, seq := .enabled, env := env }

/-- A process that has ended in the timeout, the engine IDLE. -/
def halted (program : List HostEvent) : State :=
  { idle with seq := .timeout, halt := true, exitCode := .timeout, program := program }

/-- The answers used below. -/
def acked : EnvMove := .move .ack (.err 0x48#8)
def nacked (code : Byte) : EnvMove := .move (.err code) (.err code)
def answered (b0 b1 b2 b3 : Byte) : EnvMove := .move .ack (.data b0 b1 b2 b3)

/-! ### WellFormed: an ill-formed term for each check, refused -/

/-- START = 1 is no CTRL.ST (R81). -/
theorem test_wellFormed_ctrlSt : (Instr.ctrlSt 0x00000040#32).wellFormed = false := by decide
/-- WE = 0 is no XFER.W (R63). -/
theorem test_wellFormed_xferW : (Instr.xferW 0x80000040#32).wellFormed = false := by decide
/-- RO = 1 is no XFER.R (R64). -/
theorem test_wellFormed_xferR : (Instr.xferR 0x80000060#32).wellFormed = false := by decide
/-- Bit indexes outside 0..31 (R100, V50). -/
theorem test_wellFormed_bitIndex :
    (Instr.setb .ctrl 32).wellFormed = false ∧ (Instr.clrb .addr (-1)).wellFormed = false ∧
      (Instr.getb .status 32).wellFormed = false := by decide
/-- Lengths outside 1..4 (R147, V94). -/
theorem test_wellFormed_length :
    (Instr.twiWrite 0x49#32 0 0#32).wellFormed = false ∧
      (Instr.twiWrite 0x49#32 5 0#32).wellFormed = false ∧
      (Instr.twiRead 0x49#32 0).wellFormed = false ∧
      (Instr.twiRead 0x49#32 5).wellFormed = false := by decide

/-! ### Decoding: words from the encodings of spec/30_encoding.md -/

/-- The five reads at their offsets (R10, R69). -/
theorem test_decode_reads :
    decoded (.read 32 0x00) = some .ctrlLd ∧ decoded (.read 32 0x08) = some .addrLd ∧
      decoded (.read 32 0x0C) = some .doutLd ∧ decoded (.read 32 0x10) = some .dinLd ∧
      decoded (.read 32 0x14) = some .statusLd := by decide
/-- The plain writes, and the literal 3 (R69, R88). -/
theorem test_decode_writes :
    decoded (.write 32 0x00 0x80000010#32) = some (.ctrlSt 0x80000010#32) ∧
      decoded (.write 32 0x08 0x00000049#32) = some (.addrSt 0x00000049#32) ∧
      decoded (.write 32 0x0C 0x0000C001#32) = some (.doutSt 0x0000C001#32) ∧
      decoded (.write 32 0x14 0x00000003#32) = some .stclr := by decide
/-- V60, V63, V68: bit 31, bit 6 and bit 4 set, bits 24 and 5 clear. -/
theorem test_decode_xferW :
    decoded (.write 32 0x00 0b10000000000000000000000001010000#32) =
        some (.xferW 0x80000050#32) ∧
      decoded (.write 32 0x00 0x8000005C#32) = some (.xferW 0x8000005C#32) ∧
      decoded (.write 32 0x00 0x80000053#32) = some (.xferW 0x80000053#32) := by decide
/-- V64, V67, V69: bit 31 and bit 6 set, bits 24, 5 and 4 clear. -/
theorem test_decode_xferR :
    decoded (.write 32 0x00 0b10000000000000000000000001000000#32) =
        some (.xferR 0x80000040#32) ∧
      decoded (.write 32 0x00 0x80000043#32) = some (.xferR 0x80000043#32) ∧
      decoded (.write 32 0x00 0x8000004F#32) = some (.xferR 0x8000004F#32) := by decide
/-- The accessors' words, `oooo rrr 0000 nnnnn` (R75; P7 and section 4 give four of them). -/
theorem test_decode_accessors :
    decoded (.cmd16 0b0001000000011111#16 []) = some (.setb .ctrl 31) ∧
      decoded (.cmd16 0x1006#16 []) = some (.setb .ctrl 6) ∧
      decoded (.cmd16 0b0010000000011000#16 []) = some (.clrb .ctrl 24) ∧
      decoded (.cmd16 0b0011101000000001#16 []) = some (.getb .status 1) ∧
      decoded (.cmd16 0b0011011000001111#16 []) = some (.getb .dout 15) := by decide
/-- The sequencer's words and their operands in the order of section 4 (R75). -/
theorem test_decode_sequencer :
    decoded (.cmd16 0b1000000000000000#16 []) = some .twiEnable ∧
      decoded (.cmd16 0b1001000000000011#16 [0x00000049#32, 0xA1B2C3D4#32]) =
        some (.twiWrite 0x00000049#32 4 0xA1B2C3D4#32) ∧
      decoded (.cmd16 0b1010000000000001#16 [0x00000049#32]) =
        some (.twiRead 0x00000049#32 2) ∧
      decoded (.cmd16 0b1011000000000000#16 []) = some .twiPoll ∧
      decoded (.cmd16 0b1100000000100000#16 []) = some (.twiDecode 0x20#8) := by decide
/-- Rejects by name: the accesses of V27 to V30. -/
theorem test_reject_accesses :
    rejected (.read 32 0x04) = some (.access .unmappedOffset) ∧
      rejected (.write 32 0x18 0#32) = some (.access .unmappedOffset) ∧
      rejected (.read 64 0x08) = some (.access .width) ∧
      rejected (.read 32 0x02) = some (.access .misaligned) ∧
      rejected (.read 16 0x01) = some (.access .width) ∧
      rejected (.read 32 (-4)) = some (.access .unmappedOffset) := by decide
/-- Rejects by name: V21, V26, V71 to V73, and CMD16 words outside the numbering (R75): a register
number with no register, a reserved bit set, a missing operand. -/
theorem test_reject_values :
    rejected (.write 32 0x10 0#32) = some .dinWrite ∧
      rejected (.write 32 0x14 0x00000001#32) = some .statusValue ∧
      rejected (.write 32 0x00 0x80000070#32) = some .commandWord ∧
      rejected (.write 32 0x00 0x81000040#32) = some .commandWord ∧
      rejected (.write 32 0x00 0x00000040#32) = some .commandWord ∧
      rejected (.cmd16 0x1200#16 []) = some .cmd16 ∧
      rejected (.cmd16 0x1020#16 []) = some .cmd16 ∧
      rejected (.cmd16 0x9000#16 [0x49#32]) = some .cmd16 ∧
      rejected (.cmd16 0x0000#16 []) = some .cmd16 := by decide
/-- Table words, operand words above the CMD16 word (R75). -/
theorem test_tableWord :
    decodeTableWord 32 0x80000050 = some (.xferW 0x80000050#32) ∧
      decodeTableWord 16 0x9000 = some (.twiWrite 0#32 1 0#32) ∧
      decodeTableWord 80 (0x9000 + 0x49 * 2 ^ 16 + 0x07 * 2 ^ 48) =
        some (.twiWrite 0x00000049#32 1 0x00000007#32) := by decide

/-! ### The register port (section 2.1) -/

/-- V1. -/
theorem test_ctrlLd : after (exec .ctrlLd idle) (·.result) = some (.word 0x80000010#32) := by decide
/-- V31: START reads 1 while PENDING. -/
theorem test_ctrlLd_pending :
    after (exec .ctrlLd (pending [.hold])) (·.result) = some (.word 0x80000050#32) := by decide
/-- V4: stored whole. -/
theorem test_ctrlSt :
    after (exec (.ctrlSt 0xFEFFFF90#32) idle) (fun t => (t.ctrl, t.engine)) =
      some (0xFEFFFF90#32, .idle) := by decide
/-- V36. -/
theorem test_ctrlSt_pending :
    faulted (exec (.ctrlSt 0x80000010#32) (pending [.hold])) = some .writeWhilePending := by decide
/-- V5. -/
theorem test_xferW :
    after (exec (.xferW 0x80000050#32) idle) (fun t => (t.ctrl, t.engine, statusWord t.status)) =
      some (0x80000050#32,
        .pending { kind := .write, n := 1, slave := 0x49#32, data := 0x07#32 },
        0x0000FF00#32) := by decide
/-- V7: bits 1:0 are ignored by a write. -/
theorem test_xferW_length :
    after (exec (.xferW 0x8000005F#32) idle) (·.engine) =
      some (.pending { kind := .write, n := 4, slave := 0x49#32, data := 0x07#32 }) := by decide
/-- V8: bits 3:2 are ignored by a read. -/
theorem test_xferR :
    after (exec (.xferR 0x8000004D#32) idle) (fun t => (t.engine, statusWord t.status)) =
      some (.pending { kind := .read, n := 2, slave := 0x49#32, data := 0x07#32 },
        0x0000FF00#32) := by decide
/-- V111: `READ_LEN_LSB` = 2. -/
theorem test_xferR_lsb2 :
    after (exec (.xferR 0x80000041#32) { idle with cfg := { params with readLen := .lsb2 } })
        (·.engine) =
      some (.pending { kind := .read, n := 1, slave := 0x49#32, data := 0x07#32 }) := by decide
/-- V10 to V14: the refused starts, in the order of R82. -/
theorem test_refused_starts :
    [0x00000050#32, 0x81000050#32, 0x80000070#32, 0x80000060#32, 0x01000060#32].map
        (fun v => refusal (issueCommand (wr32 .ctrl v) idle)) =
      [some .startWhileDisabled, some .dswapSet, some .roSet, some .roSet,
        some .startWhileDisabled] := by decide
/-- V15. -/
theorem test_addrLd : after (exec .addrLd idle) (·.result) = some (.word 0x00000049#32) := by decide
/-- V16. -/
theorem test_addrSt :
    after (exec (.addrSt 0xFFFFFFFF#32) idle) (·.addr) = some 0xFFFFFFFF#32 := by decide
/-- V34. -/
theorem test_addrSt_pending :
    faulted (exec (.addrSt 0x4A#32) (pending [.hold])) = some .writeWhilePending := by decide
/-- V17. -/
theorem test_doutLd : after (exec .doutLd idle) (·.result) = some (.word 0x00000007#32) := by decide
/-- V18. -/
theorem test_doutSt :
    after (exec (.doutSt 0x0000C001#32) idle) (·.dout) = some 0x0000C001#32 := by decide
/-- V35. -/
theorem test_doutSt_pending :
    faulted (exec (.doutSt 0#32) (pending [.hold])) = some .writeWhilePending := by decide
/-- V82, then a read of DIN: all four bytes are specified. -/
theorem test_dinLd :
    after
        (exec .dinLd
          (complete { kind := .read, n := 4, slave := 0x49#32, data := 0#32 } .ack
            (.data 0xD4#8 0xC3#8 0xB2#8 0xA1#8) { idle with ctrl := 0x80000043#32 }))
        (·.result) = some (.word 0xA1B2C3D4#32) := by decide
/-- V22: no read-to-clear. -/
theorem test_statusLd :
    after (exec .statusLd idle) (fun t => (t.result, statusWord t.status)) =
      some (.word 0x0000FF02#32, 0x0000FF02#32) := by decide
/-- V24: CODE is kept. -/
theorem test_stclr :
    after (exec .stclr { idle with status := { code := 0x20#8, done := true, err := true } })
      (fun t => statusWord t.status) = some 0x00002000#32 := by decide
/-- V26, V39, V40: other values, and the order of the checks. -/
theorem test_status_writes :
    refusal (issueCommand (wr32 .status 0x00000001#32) idle) = some .statusValue ∧
      faulted (issueCommand (wr32 .status 0x00000001#32) (pending [.hold])) =
        some .writeWhilePending ∧
      refusal (issueCommand (.write 32 0x04 0#32) (pending [.hold])) = some .unmappedOffset := by
  decide

/-! ### The accessors (section 2.2) -/

/-- V45: SETB CTRL, 6 is the trigger. -/
theorem test_setb :
    after (exec (.setb .ctrl 6) idle) (fun t => (t.ctrl, t.engine)) =
      some (0x80000050#32,
        .pending { kind := .write, n := 1, slave := 0x49#32, data := 0x07#32 }) := by decide
/-- V51, V52. -/
theorem test_setb_status :
    refusal (exec (.setb .status 0)
        { idle with status := { code := 0xFF#8, done := false, err := false } }) =
        some .statusValue ∧
      after (exec (.setb .status 0)
          { idle with status := { code := 0x00#8, done := true, err := false } })
        (fun t => statusWord t.status) = some 0x00000000#32 := by decide
/-- V44. -/
theorem test_clrb :
    after (exec (.clrb .ctrl 4) { idle with ctrl := 0x80000011#32 }) (·.ctrl) =
      some 0x80000001#32 := by decide
/-- V54. -/
theorem test_clrb_pending :
    faulted (exec (.clrb .ctrl 6) (pending [.hold, .hold])) = some .writeWhilePending := by decide
/-- V55: the hazard of R197. -/
theorem test_setb_hazard :
    after (exec (.setb .ctrl 4) (pending [.hold, acked])) (fun t => (t.ctrl, t.engine, t.bus)) =
      some (0x80000050#32,
        .pending { kind := .write, n := 1, slave := 0x49#32, data := 0x07#32 },
        [.write 0x49#32 [0x07#8]]) := by decide
/-- V48, V49. -/
theorem test_getb :
    [(1 : Int), 0, 8, 16, 31].map (fun n => after (exec (.getb .status n) idle) (·.result)) =
      [some (.bit true), some (.bit false), some (.bit true), some (.bit false),
        some (.bit false)] := by decide
/-- V50. -/
theorem test_bitIndex :
    refusal (exec (.setb .ctrl 32) idle) = some .bitIndex ∧
      refusal (exec (.getb .status 32) idle) = some .bitIndex ∧
      refusal (exec (.clrb .addr (-1)) idle) = some .bitIndex := by decide

/-! ### The completion (section 2.3) -/

/-- V77: the bytes of a write, byte 0 first; a read of DIN then returns none of its bytes (R87). -/
theorem test_complete_write :
    after (exec .statusLd
        { pending [acked] with
          ctrl := 0x8000005C#32, dinBytes := 2,
          engine := .pending
            { kind := .write, n := 4, slave := 0x49#32, data := 0xA1B2C3D4#32 } })
        (fun t => (t.ctrl, statusWord t.status, t.dinBytes, t.bus)) =
      some (0x8000001C#32, 0x0000FF02#32, 0,
        [.write 0x49#32 [0xD4#8, 0xC3#8, 0xB2#8, 0xA1#8]]) := by decide
/-- V80: the low bytes of DIN. -/
theorem test_complete_read :
    after (exec .statusLd (pendingRead [answered 0x01#8 0x90#8 0#8 0#8]))
        (fun t => (t.ctrl, statusWord t.status, t.dinBytes, t.din.extractLsb' 0 16)) =
      some (0x80000001#32, 0x0000FF02#32, 2, 0x9001#16) := by
  have h : ∀ free : Word,
      (overlay 2 (fromLanes 0x01#8 0x90#8 0#8 0#8) free).extractLsb' 0 16 = 0x9001#16 := by
    intro free
    apply BitVec.eq_of_getLsbD_eq
    intro j hj
    have hm : ∀ j : Fin 16,
        (0x0000FFFF#32).getLsbD j.val = true ∧
          (0x00009001#32).getLsbD j.val = (0x9001#16).getLsbD j.val := by decide
    have e : overlay 2 (fromLanes 0x01#8 0x90#8 0#8 0#8) free =
        0x00009001#32 ||| (free &&& ~~~0x0000FFFF#32) := rfl
    rw [BitVec.getLsbD_extractLsb', e, Nat.zero_add, BitVec.getLsbD_or, BitVec.getLsbD_and,
      BitVec.getLsbD_not, (hm ⟨j, hj⟩).1, (hm ⟨j, hj⟩).2]
    simp [hj]
  exact congrArg (fun v => some (0x80000001#32, 0x0000FF02#32, 2, v)) (h _)
/-- V83 and, with the other parameter, V113's status. -/
theorem test_complete_error :
    after (exec .statusLd (pendingRead [nacked 0x48#8]))
        (fun t => (statusWord t.status, t.dinBytes)) = some (0x00004803#32, 0) ∧
      after (exec .statusLd { pending [nacked 0x20#8] with
          cfg := { params with errorSetsDone := false } })
        (fun t => statusWord t.status) = some 0x00002001#32 := by decide

/-! ### The sequencer (section 2.4) -/

/-- V91. -/
theorem test_twiEnable :
    after (exec .twiEnable
        { idle with
          ctrl := 0x01000033#32, status := { code := 0x90#8, done := true, err := true } })
        (fun t => (t.ctrl, statusWord t.status, t.seq, t.stepIdx)) =
      some (0x80000033#32, 0x00009000#32, .enabled, 5) := by decide
/-- V92. -/
theorem test_twiEnable_twice :
    refusal (exec .twiEnable (enabled [])) = some .alreadyEnabled := by decide
/-- V96. -/
theorem test_twiWrite :
    after (exec (.twiWrite 0x49#32 1 0x07#32) (enabled [acked]))
        (fun t => (t.ctrl, t.seq, t.polls, t.stepIdx, t.bus)) =
      some (0x80000010#32, .done, 1, 12, [.write 0x49#32 [0x07#8]]) := by decide
/-- V100. -/
theorem test_twiWrite_error :
    after (exec (.twiWrite 0x49#32 1 0x07#32) (enabled [nacked 0x20#8]))
        (fun t => (t.seq, t.errClass, t.halt, t.exitCode, t.stepIdx)) =
      some (.error, .addrWNack, true, .error, 13) := by decide
/-- P6, its second command: all four bytes are specified. -/
theorem test_twiRead :
    after (exec (.twiRead 0x49#32 4)
        { enabled [answered 0xD4#8 0xC3#8 0xB2#8 0xA1#8] with
          ctrl := 0x8000001C#32, seq := .done })
        (fun t => (t.ctrl, t.value, t.result, t.seq)) =
      some (0x8000000F#32, 0xA1B2C3D4#32, .word 0xA1B2C3D4#32, .done) := by decide
/-- V99 with the bound 3: the timeout of a read. -/
theorem test_twiRead_timeout :
    after (exec (.twiRead 0x49#32 2) (enabled [.hold, .hold, .hold]))
        (fun t => (t.seq, t.exitCode, t.polls, t.stepIdx, t.ctrl)) =
      some (.timeout, .timeout, 3, 12, 0x80000041#32) := by decide
/-- V97 with the bound 3: done at the last poll. -/
theorem test_twiPoll :
    after (exec .twiPoll (pending [.hold, .hold, acked])) (fun t => (t.result, t.polls)) =
      some (.done, 3) := by decide
/-- V102: the error flag decides, not the code. -/
theorem test_twiPoll_error :
    after (exec .twiPoll { idle with status := { code := 0xFF#8, done := true, err := true } })
        (fun t => (t.seq, t.errClass, t.exitCode)) =
      some (.error, .noError, .error) := by decide
/-- Section 2.5: named codes and their neighbours. -/
theorem test_twiDecode :
    [0x20#8, 0x21#8, 0x30#8, 0x48#8, 0x70#8, 0x90#8, 0xFF#8, 0x00#8].map
        (fun c => after (exec (.twiDecode c) idle) (·.result)) =
      [some (.errClass .addrWNack), some (.errClass (.unknown 0x21#8)),
        some (.errClass .dataNack), some (.errClass .addrRNack), some (.errClass .sdaStuck),
        some (.errClass .sclStuck), some (.errClass .noError),
        some (.errClass (.unknown 0x00#8))] := by decide
/-- V93, V94, V95. -/
theorem test_refused_commands :
    refusal (exec (.twiWrite 0x49#32 1 0x07#32) idle) = some .notEnabled ∧
      refusal (exec (.twiRead 0x49#32 5) (enabled [])) = some .length ∧
      refusal (exec .ctrlLd { idle with seq := .timeout, halt := true }) = some .halted := by
  decide

/-! ### Steps -/

/-- P1's first command, placed where the next instruction is read at reset. -/
theorem test_step_enable :
    after (step (State.reset.withFetchWord 16 0x8000)) (fun t => (t.ctrl, t.seq, t.program)) =
      some (0x80000000#32, .enabled, []) := by decide
/-- P7's first line: the run is refused. -/
theorem test_step_refused :
    refusal (step (State.reset.withFetchWord 16 0x1006)) = some .startWhileDisabled := by decide
/-- R188: after a fatal end the process's remaining commands are never executed. -/
theorem test_step_fatal :
    after (step
        { enabled [nacked 0x20#8] with
          program := [.call (.twiWrite 0x49#32 1 0x07#32), .call .ctrlLd, .newRun, .wait] })
        (·.program) = some [.newRun, .wait] := by decide

/-! ### Witnesses: for each obligation with hypotheses, a state and operands that meet all of them,
with a boundary value for each clause -/

theorem pending_inv (env : List EnvMove) : (pending env).Inv := by
  refine ⟨?_, ⟨rfl, ?_, ?_⟩, Nat.zero_le 4, Nat.zero_le 3⟩
  · show ctrlStart 0x80000050#32 = true ∧ ctrlEn 0x80000050#32 = true ∧
      ctrlDswap 0x80000050#32 = false ∧ ctrlRo 0x80000050#32 = false ∧
      (⟨.write, 1, 0x49#32, 0x07#32⟩ : Latched) = latch .lsb0 0x80000050#32 0x49#32 0x07#32
    decide
  · intro (h : Seq.uninitialized = .error)
    cases h
  · intro (h : Seq.uninitialized = .timeout)
    cases h

theorem witness_DecodeOfEncodeIsTheInstruction :
    (Instr.setb .status 31).wellFormed = true ∧ (Instr.getb .ctrl 0).wellFormed = true ∧
      (Instr.twiWrite 0x49#32 4 0x07#32).wellFormed = true ∧
      (Instr.twiRead 0x49#32 1).wellFormed = true ∧
      (Instr.xferW 0xFEFFFFDF#32).wellFormed = true ∧
      (Instr.xferR 0x80000040#32).wellFormed = true ∧
      (Instr.ctrlSt 0xFFFFFFBF#32).wellFormed = true := by decide
theorem witness_DecodedCommandIsWellFormedAndEncodesBack :
    decode (.write 32 0x00 0x80000050#32) = .ok (.xferW 0x80000050#32) := rfl
theorem witness_TableRowsNeverOverlap :
    (Instr.ctrlSt 0x10#32).row.admits (wr32 .ctrl 0x80000010#32) = true ∧
      (Instr.ctrlSt 0x00#32).row.admits (wr32 .ctrl 0x80000010#32) = true := by decide
theorem witness_LengthFieldHoldsLengthMinusOne :
    ((1 : Int) ≤ 1 ∧ (1 : Int) ≤ 4 ∧ withWlen 0x8000001C#32 1 = 0x80000010#32) ∧
      (1 : Int) ≤ 4 ∧ (4 : Int) ≤ 4 ∧ withRlen .lsb0 0x8000001C#32 4 = 0x8000001F#32 := by decide
theorem witness_BusByteKIsLaneK :
    0 < 4 ∧ 3 < 4 ∧ busBytes 0xA1B2C3D4#32 4 = [0xD4#8, 0xC3#8, 0xB2#8, 0xA1#8] := by decide
theorem witness_PortChecksComeInOrder :
    idle.ready = true ∧ (pending [.hold]).ready = true ∧ (31 : Nat) ≠ 32 ∧ (33 : Nat) ≠ 32 ∧
      ((0x16 : Int) % 4 ≠ 0) ∧ ((0x18 : Int) % 4 = 0) ∧
      (0x18 : Int) ∉ [(0x00 : Int), 0x08, 0x0C, 0x10, 0x14] ∧
      (0x04 : Int) ∉ [(0x00 : Int), 0x08, 0x0C, 0x10, 0x14] ∧ (0x14 : Int) = regOffset .status ∧
      (engineTurn (pending [.hold])).engine ≠ .idle ∧ (engineTurn idle).engine = .idle := by
  decide
theorem witness_WindowAtPhysicalAddresses :
    ((∀ x : Reg, Config.twiBase + 0x18 ≠ Config.twiBase + (regOffset x).toNat) ∧
      (Config.twiBase + 0x18) % 4 = 0) ∧
    (∀ x : Reg, Config.twiBase + 0x15 ≠ Config.twiBase + (regOffset x).toNat) ∧
      (Config.twiBase + 0x15) % 4 ≠ 0 := by
  have hb : Config.twiBase % 4 = 0 := by unfold Config.twiBase; omega
  have h18 : ∀ x : Reg, (regOffset x).toNat ≠ 0x18 := by intro x; cases x <;> decide
  have h15 : ∀ x : Reg, (regOffset x).toNat ≠ 0x15 := by intro x; cases x <;> decide
  refine ⟨⟨fun x hx => h18 x (by omega), by omega⟩, fun x hx => h15 x (by omega), by omega⟩
theorem witness_AddrAndDoutReadBack : idle.ready = true ∧ (pending []).ready = true := by decide
theorem witness_CtrlReadsBack :
    idle.ready = true ∧ ctrlStart 0xFEFFFF90#32 = false ∧
      after (exec (.ctrlSt 0xFEFFFF90#32) idle) (·.ctrl) = some 0xFEFFFF90#32 ∧
      (pending [.hold]).ready = true := by decide
theorem witness_CtrlReadsBack_inv : (pending [.hold]).Inv := pending_inv _
theorem witness_StatusReadsItsFields :
    idle.ready = true ∧ idle.status.done = true ∧ (pending [acked]).ready = true := by decide
theorem witness_DinReadsItsBytesAndDrawsTheRest :
    (pendingRead [.hold]).ready = true ∧
      (engineTurn (pendingRead [.hold])).engine =
        .pending { kind := .read, n := 2, slave := 0x49#32, data := 0x07#32 } ∧
      { idle with dinBytes := 4 }.ready = true ∧ (engineTurn idle).engine = .idle ∧
      (engineTurn (pending [.hold])).engine =
        .pending { kind := .write, n := 1, slave := 0x49#32, data := 0x07#32 } ∧
      failureCode { kind := .read, n := 2, slave := 0x49#32, data := 0x07#32 } .ack
        (.err 0x48#8) ≠ none := by decide
theorem witness_ReadsWhilePendingReturnTheRegisters :
    (pending [.hold]).ready = true ∧
      (pending [.hold]).engine =
        .pending { kind := .write, n := 1, slave := 0x49#32, data := 0x07#32 } ∧
      (pending [.hold]).env = .hold :: [] ∧ (pending [.hold]).dinBytes = 0 ∧
      { pending [.hold] with dinBytes := 4 }.ready = true ∧ (pendingRead [.hold]).ready = true ∧
      (pendingRead [.hold]).engine =
        .pending { kind := .read, n := 2, slave := 0x49#32, data := 0x07#32 } := by decide
theorem witness_ReadsWhilePendingReturnTheRegisters_inv :
    (pending [.hold]).Inv ∧ { pending [.hold] with dinBytes := 4 }.Inv ∧
      (pendingRead [.hold]).Inv := by
  refine ⟨pending_inv _, ?_, ?_⟩
  · obtain ⟨h1, h2, -, h4⟩ := pending_inv [.hold]
    exact ⟨h1, h2, Nat.le_refl 4, h4⟩
  · refine ⟨?_, (pending_inv [.hold]).2.1, Nat.zero_le 4, Nat.zero_le 3⟩
    show ctrlStart 0x80000041#32 = true ∧ ctrlEn 0x80000041#32 = true ∧
      ctrlDswap 0x80000041#32 = false ∧ ctrlRo 0x80000041#32 = false ∧
      (⟨.read, 2, 0x49#32, 0x07#32⟩ : Latched) = latch .lsb0 0x80000041#32 0x49#32 0x07#32
    decide
theorem witness_PlainStoresReplaceTheirRegister :
    idle.ready = true ∧ (engineTurn idle).engine = .idle ∧ ctrlStart 0xFFFFFFBF#32 = false ∧
      (pending [.hold]).ready = true ∧ (engineTurn (pending [.hold])).engine ≠ .idle ∧
      (engineTurn (pending [acked])).engine = .idle := by decide
theorem witness_StclrClearsTheFlagsOnly :
    idle.ready = true ∧ (engineTurn idle).engine = .idle ∧ 0x00000002#32 ≠ 0x00000003#32 ∧
      (pending [.hold]).ready = true ∧ (engineTurn (pending [.hold])).engine ≠ .idle := by decide
theorem witness_DinWriteIsRefused :
    idle.ready = true ∧ (engineTurn idle).engine = .idle ∧ (0 : Int) ≤ 31 ∧ (31 : Int) ≤ 31 := by
  decide
theorem witness_AnyWriteWhilePendingFaults :
    (pending [.hold]).ready = true ∧
      (engineTurn (pending [.hold])).engine =
        .pending { kind := .write, n := 1, slave := 0x49#32, data := 0x07#32 } := by decide
theorem witness_UndecodableCommandNeverRuns :
    decode (.write 32 0x00 0x80000070#32) = .error .commandWord := rfl
theorem witness_StartIsAcceptedOnlyIfEnabledAndClear :
    idle.ready = true ∧ (engineTurn idle).engine = .idle ∧ (pending [.hold]).ready = true ∧
      (engineTurn (pending [.hold])).engine ≠ .idle ∧
      (0x00000040#32 : Word).getLsbD 6 = true ∧ (0x00000040#32 : Word).getLsbD 31 = false ∧
      (0x81000060#32 : Word).getLsbD 31 = true ∧ (0x81000060#32 : Word).getLsbD 24 = true ∧
      (0x80000060#32 : Word).getLsbD 24 = false ∧ (0x80000060#32 : Word).getLsbD 5 = true ∧
      (0x80000040#32 : Word).getLsbD 31 = true ∧ (0x80000040#32 : Word).getLsbD 24 = false ∧
      (0x80000040#32 : Word).getLsbD 5 = false := by decide
theorem witness_AcceptanceLatchesTheCommand :
    idle.ready = true ∧ (engineTurn idle).engine = .idle ∧
      (Instr.xferW 0x8000005C#32).wellFormed = true ∧
      (Instr.xferR 0x80000043#32).wellFormed = true := by decide
theorem witness_EngineCompletesAtAnyPointOrNever :
    idle.engine = .idle ∧
      (pending []).engine =
        .pending { kind := .write, n := 1, slave := 0x49#32, data := 0x07#32 } ∧
      (pending [.hold]).env = .hold :: [] ∧
      (pending [acked]).env = .move .ack (.err 0x48#8) :: [] ∧ (pending []).env = [] := by decide
theorem witness_CompletionWritesTheRegistersAtOnce :
    ({ kind := .write, n := 4, slave := 0#32, data := 0#32 } : Latched).kind = .write ∧
      ({ kind := .read, n := 1, slave := 0#32, data := 0#32 } : Latched).kind = .read := by decide
theorem witness_WellBehavedBusGivesKnownClasses :
    writeWellBehaved (.err 0x90#8) = true ∧ readWellBehaved (.err 0x48#8) = true ∧
      failureCode { kind := .write, n := 1, slave := 0#32, data := 0#32 } (.err 0x90#8)
        (.err 0x48#8) = some 0x90#8 ∧
      failureCode { kind := .read, n := 1, slave := 0#32, data := 0#32 } (.err 0x90#8)
        (.err 0x48#8) = some 0x48#8 := by decide
theorem witness_AccessorsAreOneReadAndAtMostOneWrite :
    idle.ready = true ∧ (-1 : Int) < 0 ∧ (31 : Int) < 32 ∧ (0 : Int) ≤ 31 ∧ (31 : Int) ≤ 31 := by
  decide
theorem witness_SetbSetsOneBit :
    idle.ready = true ∧ idle.engine = .idle ∧ ctrlStart idle.ctrl = false ∧ (31 : Int) ≠ 6 ∧
      ctrlEn idle.ctrl = true ∧ ctrlDswap idle.ctrl = false ∧ ctrlRo idle.ctrl = false ∧
      statusWord { code := 0x00#8, done := true, err := false } ||| (1#32 <<< 0) =
        0x00000003#32 ∧
      statusWord idle.status ||| (1#32 <<< 31) ≠ 0x00000003#32 := by decide
theorem witness_ClrbClearsOneBit :
    idle.ready = true ∧ idle.engine = .idle ∧ ctrlStart idle.ctrl = false ∧
      statusWord { code := 0x01#8, done := true, err := true } &&& ~~~(1#32 <<< 8) =
        0x00000003#32 ∧
      statusWord idle.status &&& ~~~(1#32 <<< 0) ≠ 0x00000003#32 := by decide
theorem witness_GetbReturnsOneBit :
    idle.ready = true ∧ (pending [.hold]).ready = true ∧ (0 : Int) ≤ 31 ∧ (31 : Int) ≤ 31 ∧
      (2 : Int) ≠ 0 ∧ (7 : Int) < 8 ∧ (15 : Int) < 16 := by decide
theorem witness_AccessorLawsOnStorage :
    idle.ready = true ∧ idle.engine = .idle ∧ ctrlStart idle.ctrl = false ∧ (0 : Int) ≠ 6 ∧
      (31 : Int) ≠ 6 ∧ (0 : Int) ≠ 31 ∧ (1 : Int) < 2 ∧ (31 : Int) ≤ 31 ∧
      { idle with env := [acked] }.ready = true ∧ { idle with env := [acked] }.enabledIdle = true ∧
      ctrlRo { idle with env := [acked] }.ctrl = false ∧
      { idle with env := [acked] }.env = .move .ack (.err 0x48#8) :: [] := by decide
theorem witness_ReadModifyWriteAcrossCompletionRetriggers :
    (pending [.hold, acked]).ready = true ∧
      (pending [.hold, acked]).engine =
        .pending { kind := .write, n := 1, slave := 0x49#32, data := 0x07#32 } ∧
      (pending [.hold, acked]).env = .hold :: .move .ack (.err 0x48#8) :: [] ∧
      (pending [.hold, .hold]).env = .hold :: .hold :: [] ∧
      (31 : Int) ≠ 5 ∧ (31 : Int) ≠ 24 ∧ (0 : Int) ≠ 6 ∧ (0 : Int) ≠ 31 := by decide
theorem witness_ReadModifyWriteAcrossCompletionRetriggers_inv :
    (pending [.hold, acked]).Inv ∧ (pending [.hold, .hold]).Inv :=
  ⟨pending_inv _, pending_inv _⟩
theorem witness_EnableSetsEnClearsDswapAndFlags :
    idle.seq = .uninitialized ∧ idle.cleanStart = true ∧
      (pending [.hold, .hold]).seq = .uninitialized ∧
      (pending [.hold, .hold]).engine =
        .pending { kind := .write, n := 1, slave := 0x49#32, data := 0x07#32 } ∧
      (pending [.hold, .hold]).env = .hold :: .hold :: [] := by decide
theorem witness_CommandsInTheWrongStateAreRefused :
    idle.seq = .uninitialized ∧ (enabled []).seq = .enabled ∧
      { idle with seq := .timeout }.seq = .timeout ∧
      { idle with seq := .readPending }.seq = .readPending ∧
      (0 : Int) < 1 ∧ (4 : Int) < 5 := by decide
theorem witness_WriteThatSucceeds :
    (enabled [.hold, .hold, acked]).transferReady = true ∧
      (enabled [.hold, .hold, acked]).enabledIdle = true ∧
      (enabled [.hold, .hold, acked]).cfg.startClearsFlags = true ∧ (1 : Int) ≤ 4 ∧
      (4 : Int) ≤ 4 ∧ 2 < (enabled [.hold, .hold, acked]).cfg.pollBound ∧
      (enabled [.hold, .hold, acked]).env =
        List.replicate 2 .hold ++ .move .ack (.err 0x48#8) :: [] := by decide
theorem witness_WriteThatFails :
    (enabled [nacked 0x20#8]).transferReady = true ∧
      (enabled [nacked 0x20#8]).enabledIdle = true ∧
      (enabled [nacked 0x20#8]).cfg.startClearsFlags = true ∧
      (enabled [nacked 0x20#8]).cfg.errorSetsDone = true ∧ (1 : Int) ≤ 1 ∧ (1 : Int) ≤ 4 ∧
      0 < (enabled [nacked 0x20#8]).cfg.pollBound ∧
      (enabled [nacked 0x20#8]).env =
        List.replicate 0 .hold ++ .move (.err 0x20#8) (.err 0x20#8) :: [] := by decide
theorem witness_WriteThatTimesOut :
    (enabled [.hold, .hold, .hold]).transferReady = true ∧
      (enabled [.hold, .hold, .hold]).enabledIdle = true ∧
      0 < (enabled [.hold, .hold, .hold]).cfg.pollBound ∧
      (enabled [.hold, .hold, .hold]).cfg.startClearsFlags = true ∧ (1 : Int) ≤ 1 ∧
      (1 : Int) ≤ 4 ∧
      (enabled [.hold, .hold, .hold]).env =
        List.replicate (enabled [.hold, .hold, .hold]).cfg.pollBound .hold ++ [] := by decide
theorem witness_ReadThatSucceeds :
    (enabled [answered 1#8 2#8 3#8 4#8]).transferReady = true ∧
      (enabled [answered 1#8 2#8 3#8 4#8]).enabledIdle = true ∧
      (enabled [answered 1#8 2#8 3#8 4#8]).cfg.startClearsFlags = true ∧ (1 : Int) ≤ 4 ∧
      (4 : Int) ≤ 4 ∧ 0 < (enabled [answered 1#8 2#8 3#8 4#8]).cfg.pollBound ∧
      (enabled [answered 1#8 2#8 3#8 4#8]).env =
        List.replicate 0 .hold ++ .move .ack (.data 1#8 2#8 3#8 4#8) :: [] := by decide
theorem witness_ReadThatFails :
    (enabled [.hold, nacked 0x48#8]).transferReady = true ∧
      (enabled [.hold, nacked 0x48#8]).enabledIdle = true ∧
      (enabled [.hold, nacked 0x48#8]).cfg.startClearsFlags = true ∧
      (enabled [.hold, nacked 0x48#8]).cfg.errorSetsDone = true ∧ (1 : Int) ≤ 2 ∧
      (2 : Int) ≤ 4 ∧ 1 < (enabled [.hold, nacked 0x48#8]).cfg.pollBound ∧
      (enabled [.hold, nacked 0x48#8]).env =
        List.replicate 1 .hold ++ .move (.err 0x48#8) (.err 0x48#8) :: [] := by decide
theorem witness_ReadThatTimesOut :
    (enabled [.hold, .hold, .hold]).transferReady = true ∧
      (enabled [.hold, .hold, .hold]).enabledIdle = true ∧
      0 < (enabled [.hold, .hold, .hold]).cfg.pollBound ∧
      (enabled [.hold, .hold, .hold]).cfg.startClearsFlags = true ∧ (1 : Int) ≤ 4 ∧
      (4 : Int) ≤ 4 ∧
      (enabled [.hold, .hold, .hold]).env =
        List.replicate (enabled [.hold, .hold, .hold]).cfg.pollBound .hold ++ [] := by decide
theorem witness_TransfersEndInOneOfThreeWays :
    (enabled []).transferReady = true ∧ (enabled []).enabledIdle = true ∧
      (enabled []).halt = false ∧ 0 < (enabled []).cfg.pollBound ∧ (1 : Int) ≤ 4 ∧ (4 : Int) ≤ 4 ∧
      { enabled [] with seq := .done }.transferReady = true := by decide
theorem witness_PollWaitsForDoneUpToTheBound :
    (pending [.hold, .hold, acked]).ready = true ∧
      (pending [.hold, .hold, acked]).status.done = false ∧
      2 < (pending [.hold, .hold, acked]).cfg.pollBound ∧
      failureCode { kind := .write, n := 1, slave := 0x49#32, data := 0x07#32 } .ack
        (.err 0x48#8) = none ∧
      (pending [.hold, .hold, acked]).env =
        List.replicate 2 .hold ++ .move .ack (.err 0x48#8) :: [] ∧
      (pending [.hold, .hold, .hold]).env =
        List.replicate (pending [.hold, .hold, .hold]).cfg.pollBound .hold ++ [] ∧
      { idle with status := { code := 0#8, done := false, err := false } }.ready = true ∧
      { idle with status := { code := 0#8, done := false, err := false } }.engine = .idle := by
  decide
theorem witness_ErrorFlagEndsTheRun :
    idle.ready = true ∧ idle.engine = .idle ∧ idle.status.done = true ∧ 0 < idle.cfg.pollBound ∧
      idle.status.err = false ∧
      { idle with status := { code := 0x20#8, done := true, err := true } }.status.err = true := by
  decide
theorem witness_DecodeIsTotal :
    idle.ready = true ∧ 0x21#8 ∉ [0x20#8, 0x30#8, 0x48#8, 0x70#8, 0x90#8, 0xFF#8] ∧
      0xFE#8 ∉ [0x20#8, 0x30#8, 0x48#8, 0x70#8, 0x90#8, 0xFF#8] := by decide
theorem witness_WriteThenReadRoundTrips :
    let s := enabled [.hold, acked, .hold, .hold, answered 0xEF#8 0xCD#8 0xAB#8 0#8]
    s.transferReady = true ∧ s.enabledIdle = true ∧ s.cfg.startClearsFlags = true ∧
      1 < s.cfg.pollBound ∧ 2 < s.cfg.pollBound ∧ (1 : Int) ≤ 3 ∧ (3 : Int) ≤ 4 ∧
      [0xEF#8, 0xCD#8, 0xAB#8, 0#8].take (3 : Int).toNat =
        busBytes 0xFFABCDEF#32 (3 : Int).toNat ∧
      s.env = List.replicate 1 .hold ++ .move .ack (.err 0x48#8) ::
        (List.replicate 2 .hold ++ .move .ack (.data 0xEF#8 0xCD#8 0xAB#8 0#8) :: []) := by decide
theorem witness_ErrorWithoutDoneTimesOut :
    let s : State := { enabled [nacked 0x20#8] with cfg := { params with errorSetsDone := false } }
    s.transferReady = true ∧ s.enabledIdle = true ∧ s.cfg.startClearsFlags = true ∧
      s.cfg.errorSetsDone = false ∧ (1 : Int) ≤ 1 ∧ (1 : Int) ≤ 4 ∧ 0 < s.cfg.pollBound ∧
      s.env = List.replicate 0 .hold ++ .move (.err 0x20#8) (.err 0x20#8) :: [] := by decide
theorem witness_StaleDoneEndsThePollAtOnce :
    let s : State :=
      { enabled [.hold, .hold, .hold] with cfg := { params with startClearsFlags := false } }
    s.transferReady = true ∧ s.enabledIdle = true ∧ s.cfg.startClearsFlags = false ∧
      s.status.done = true ∧ s.status.err = false ∧ 0 < s.cfg.pollBound ∧ (1 : Int) ≤ 2 ∧
      (2 : Int) ≤ 4 ∧ s.env = .hold :: .hold :: .hold :: [] := by decide
theorem witness_PortAndAccessorsLeaveTheSequencer :
    isPortOrAccessor (.clrb .ctrl 4) = true ∧
      after (exec (.clrb .ctrl 4) idle) (·.ctrl) = some 0x80000000#32 := by decide
theorem witness_FatalStatesAreAbsorbing :
    (halted [.wait]).Inv ∧ (halted [.wait]).halt = true ∧
      (∀ rest, (halted [.wait]).program ≠ .newRun :: rest) ∧
      after (step (halted [.wait])) (·.tick) = some 1 := by
  refine ⟨⟨?_, ⟨rfl, ?_, fun _ => rfl⟩, Nat.zero_le 4, Nat.zero_le 3⟩, rfl, ?_, rfl⟩
  · show ctrlStart 0x80000010#32 = false
    decide
  · intro (h : Seq.timeout = .error)
    cases h
  · intro rest (h : [HostEvent.wait] = .newRun :: rest)
    cases h
theorem witness_NewProcessResetsTheSequencerOnly :
    { idle with program := [.newRun] }.program = .newRun :: [] := rfl
theorem witness_StepRunsTheDecodedInstruction :
    { idle with program := [.issue (.read 32 0x14)] }.program = .issue (.read 32 0x14) :: [] ∧
      decode (.read 32 0x14) = .ok .statusLd ∧
      { idle with program := [.call .twiPoll] }.program = .call .twiPoll :: [] ∧
      decodeTableWord 16 0x8000 = some .twiEnable ∧ idle.halt = false ∧
      { idle with halt := true }.halt = true := by
  refine ⟨rfl, rfl, rfl, rfl, rfl, rfl⟩
theorem witness_WithoutAccessOnlyTheEngineMoves :
    idle.program = [] ∧ { idle with program := [.wait] }.program = .wait :: [] := by decide
theorem witness_FatalEndDropsTheRemainingCommands :
    let s : State :=
      { enabled [nacked 0x20#8] with
        program := [.call (.twiWrite 0x49#32 1 0x07#32), .call .ctrlLd] }
    s.program = .call (.twiWrite 0x49#32 1 0x07#32) :: [.call .ctrlLd] ∧ s.halt = false ∧
      after (step s) (·.halt) = some true := by decide
theorem witness_EveryStepKeepsTheInvariant :
    (pending [acked]).Inv ∧ after (step (pending [acked])) (·.engine) = some .idle :=
  ⟨pending_inv _, by decide⟩
theorem witness_StartIsOneExactlyWhilePending :
    after
      (core.run 2
        { State.resetWith params with
          program := [.call (.setb .ctrl 31), .call (.setb .ctrl 6)], env := [] })
      (fun t => (t.ctrl, t.engine)) =
      some (0x80000040#32, .pending { kind := .read, n := 1, slave := 0#32, data := 0#32 }) := by
  decide
theorem witness_NoStepChangesTheParameters :
    after (step { idle with program := [.call .stclr] }) (·.cfg) = some params := by decide

end Sys2Proof.Tests
end

section
/-! PROOFS. TWI.DECODE and the error table (spec/30_encoding.md R68, spec/43_sequencer.md R146). -/

namespace Sys2Proof.Machine

/-- TWI.DECODE hands back the code's class and touches no register, no flag and no engine state. -/
theorem exec_twiDecode_ready {s : State} (code : Byte) (h : s.ready = true) :
    exec (.twiDecode code) s = .next { s with result := .errClass (decodeClass code) } :=
  command_ready _ h

/-- A code is UNKNOWN exactly when the table has no row for it, and then it carries its own number. -/
theorem decodeClass_eq_unknown_iff {code : Byte} :
    decodeClass code = .unknown code ↔
      code ∉ [0x20#8, 0x30#8, 0x48#8, 0x70#8, 0x90#8, 0xFF#8] := by
  simp only [List.mem_cons, List.not_mem_nil, or_false, not_or]
  constructor
  · intro h
    refine ⟨?_, ?_, ?_, ?_, ?_, ?_⟩ <;> (rintro rfl; cases h)
  · rintro ⟨h20, h30, h48, h70, h90, hFF⟩
    rw [decodeClass, if_neg h20, if_neg h30, if_neg h48, if_neg h70, if_neg h90, if_neg hFF]

/-- Settles O41: the command's frame, the six rows of the table by evaluation, and the rest of the codes. -/
theorem decodeIsTotal : Obligations.DecodeIsTotal :=
  ⟨fun _ code h => exec_twiDecode_ready code h,
    rfl, rfl, rfl, rfl, rfl, rfl, rfl, rfl, rfl, rfl, rfl, rfl,
    fun _ h => ⟨decodeClass_eq_unknown_iff.2 h, rfl⟩⟩

end Sys2Proof.Machine
end

section
/-! PROOFS. The endings of a sequenced transfer (spec/43_sequencer.md R144, R145, R148). -/

namespace Sys2Proof.Machine

/-- The three endings of R148, told apart by `seq`, of a transfer begun in `s`; `returned` is what the
done ending asks of the state besides. -/
def transferEnding (returned : State → Prop) (s t : State) : Prop :=
  (t.seq = .done ∧ t.halt = false ∧ returned t) ∨
  (t.seq = .error ∧ t.halt = true ∧ t.exitCode = .error ∧ t.result = .nothing ∧
    t.errClass = decodeClass t.errCode) ∨
  (t.seq = .timeout ∧ t.halt = true ∧ t.exitCode = .timeout ∧ t.result = .nothing ∧
    t.polls = s.cfg.pollBound ∧ t.errCode = s.errCode ∧ t.errClass = s.errClass)

/-- What a transfer does after a poll read done: it answers and records DONE, with no further poll and
no halt. -/
def recordsDone (returned : State → Prop) (tail : State → Run HostResult) : Prop :=
  ∀ t, ∃ v u, tail t = .ok v u ∧ u.seq = .done ∧ u.halt = t.halt ∧ u.polls = t.polls ∧
    returned { u with result := v }

/-- A poll followed by a tail that records DONE ends in one of the three ways within the bound; the
tail runs only when the poll raised no fatal outcome. -/
theorem poll_then_tail_ends {returned : State → Prop} {tail : State → Run HostResult} (s : State)
    (htail : recordsDone returned tail) (hhalt : s.halt = false) :
    ∃ t, finish ((poll s).bind fun d u => if d then tail u else .ok .nothing u) = .next t ∧
      t.polls ≤ s.cfg.pollBound ∧ transferEnding returned s t := by
  obtain ⟨d, u, hpoll, hbound, -, -, -, hend⟩ := poll_total s
  rw [hpoll, bind_ok]
  rcases hend with ⟨rfl, -, huhalt, -⟩ | ⟨rfl, herror⟩ | ⟨rfl, htimeout⟩
  · obtain ⟨v, t, ht, hseq, hthalt, hpolls, hret⟩ := htail u
    rw [if_pos rfl, ht]
    exact ⟨_, rfl, hpolls.trans_le hbound, .inl ⟨hseq, hthalt.trans (huhalt.trans hhalt), hret⟩⟩
  · obtain ⟨hseq, hthalt, hexit, hclass⟩ := herror
    exact ⟨_, rfl, hbound, .inr (.inl ⟨hseq, hthalt, hexit, rfl, hclass⟩)⟩
  · obtain ⟨hseq, hthalt, hexit, hrecord⟩ := htimeout
    exact ⟨_, rfl, hbound, .inr (.inr ⟨hseq, hthalt, hexit, rfl, hrecord⟩)⟩

/-- TWI.WRITE ends in one of the three ways; done returns nothing (R142). -/
theorem twiWrite_ends {s : State} (slave data : Word) {len : Int} (ht : s.transferReady = true)
    (he : s.enabledIdle = true) (hhalt : s.halt = false) (h1 : 1 ≤ len) (h4 : len ≤ 4) :
    ∃ t, exec (.twiWrite slave len data) s = .next t ∧ t.polls ≤ s.cfg.pollBound ∧
      transferEnding (fun t => t.result = .nothing) s t := by
  rw [twiWrite_start ht he h1 h4]
  exact poll_then_tail_ends (writeStarted slave len data s)
    (fun t => ⟨.nothing, { t with seq := .done }, rfl, rfl, rfl, rfl, rfl⟩) hhalt

/-- TWI.READ ends in one of the three ways; done returns the word it recorded in `value` (R143). -/
theorem twiRead_ends {s : State} (slave : Word) {len : Int} (ht : s.transferReady = true)
    (he : s.enabledIdle = true) (hhalt : s.halt = false) (h1 : 1 ≤ len) (h4 : len ≤ 4) :
    ∃ t, exec (.twiRead slave len) s = .next t ∧ t.polls ≤ s.cfg.pollBound ∧
      transferEnding (fun t => t.result = .word t.value) s t := by
  rw [twiRead_start ht he h1 h4]
  refine poll_then_tail_ends (readStarted slave len s) (fun t => ?_) hhalt
  rw [readReg, counted_ok, bind_ok]
  exact ⟨_, _, rfl, rfl, engineTurn_halt t, engineTurn_polls t, rfl⟩

/-- Settles O38: up to the poll each operation's accesses succeed, and the poll always answers within
its bound. -/
theorem transfersEndInOneOfThreeWays : Obligations.TransfersEndInOneOfThreeWays := by
  intro s i slave data len ht he hhalt _ h1 h4 hi
  rcases hi with rfl | rfl
  · obtain ⟨t, hexec, hbound, hend⟩ := twiWrite_ends slave data ht he hhalt h1 h4
    exact ⟨t, hexec, hbound, hend.imp_left fun ⟨hseq, hrun, _⟩ => ⟨hseq, hrun, nofun⟩⟩
  · obtain ⟨t, hexec, hbound, hend⟩ := twiRead_ends slave ht he hhalt h1 h4
    exact ⟨t, hexec, hbound, hend.imp_left fun ⟨hseq, hrun, hval⟩ => ⟨hseq, hrun, fun _ => hval⟩⟩

end Sys2Proof.Machine
end

section
/-! PROOFS. A new process (spec/70_reset_and_hazards.md R191). -/

namespace Sys2Proof.Machine

/-- A step whose next event is a new process takes the event off the list and does `newProcess`, and
nothing else: the engine has no opportunity in it. -/
theorem step_newRun {s : State} {rest : List HostEvent} (h : s.program = .newRun :: rest) :
    step s = .next (newProcess { s with program := rest }) := by
  simp only [step, nextEvent, h, runEvent]

/-- Settles O49: the step is `newProcess`, whose field lemmas name the reset fields and the kept ones. -/
theorem newProcessResetsTheSequencerOnly : Obligations.NewProcessResetsTheSequencerOnly := by
  intro s rest h
  refine ⟨newProcess { s with program := rest }, step_newRun h, ?_⟩
  simp only [newProcess_seq, newProcess_stepIdx, newProcess_polls, newProcess_halt, newProcess_ctrl,
    newProcess_addr, newProcess_dout, newProcess_din, newProcess_dinBytes, newProcess_status,
    newProcess_engine, newProcess_program, newProcess_cfg, and_self]

end Sys2Proof.Machine
end

section
/-! PROOFS. The bits of a CTRL word that its row of the opcode table and a start ask for
(spec/30_encoding.md R62 to R64, R69; spec/42_bus_engine.md R113). -/

namespace Sys2Proof.Machine

/-- A word lies under a mask exactly if it has the match's bits at the mask's places `js`. -/
theorem and_mask_eq_iff {mask value : Word} {js : List Nat}
    (hmask : ∀ j : Fin 32, mask.getLsbD j = decide (j.val ∈ js)) (hvalue : value &&& mask = value)
    (v : Word) :
    v &&& mask = value ↔ ∀ j ∈ js, j < 32 → v.getLsbD j = value.getLsbD j := by
  constructor
  · intro h j hj h32
    rw [← h, BitVec.getLsbD_and, hmask ⟨j, h32⟩, decide_eq_true hj, Bool.and_true]
  · intro h
    apply BitVec.eq_of_getLsbD_eq
    intro j h32
    rw [← hvalue, BitVec.getLsbD_and, BitVec.getLsbD_and, hmask ⟨j, h32⟩]
    by_cases hj : j ∈ js
    · rw [h j hj h32]
    · simp [hj]

theorem isStoreWord_iff (v : Word) : isStoreWord v = true ↔ ctrlStart v = false := by
  rw [isStoreWord, beq_iff_eq, and_mask_eq_iff (js := [6]) (by decide) (by decide)]
  simp [ctrlStart, -BitVec.getLsbD_eq_getElem]

theorem isWriteCommand_iff (v : Word) :
    isWriteCommand v = true ↔
      ctrlEn v = true ∧ ctrlDswap v = false ∧ ctrlStart v = true ∧ ctrlRo v = false ∧
        ctrlWe v = true := by
  rw [isWriteCommand, beq_iff_eq,
    and_mask_eq_iff (js := [31, 24, 6, 5, 4]) (by decide) (by decide)]
  simp [ctrlEn, ctrlDswap, ctrlStart, ctrlRo, ctrlWe, -BitVec.getLsbD_eq_getElem]

theorem isReadCommand_iff (v : Word) :
    isReadCommand v = true ↔
      ctrlEn v = true ∧ ctrlDswap v = false ∧ ctrlStart v = true ∧ ctrlRo v = false ∧
        ctrlWe v = false := by
  rw [isReadCommand, beq_iff_eq,
    and_mask_eq_iff (js := [31, 24, 6, 5, 4]) (by decide) (by decide)]
  simp [ctrlEn, ctrlDswap, ctrlStart, ctrlRo, ctrlWe, -BitVec.getLsbD_eq_getElem]

/-- The decoder's choice among the three CTRL rows is the choice of their well-formedness checks. -/
theorem decodeCtrlWrite_eq (v : Word) :
    decodeCtrlWrite v =
      if isStoreWord v then .ok (.ctrlSt v) else if isWriteCommand v then .ok (.xferW v)
      else if isReadCommand v then .ok (.xferR v) else .error .commandWord := by
  simp only [decodeCtrlWrite, isStoreWord, isWriteCommand, isReadCommand, beq_iff_eq]

theorem decodeCtrlWrite_store {v : Word} (h : isStoreWord v = true) :
    decodeCtrlWrite v = .ok (.ctrlSt v) := by
  rw [decodeCtrlWrite_eq, if_pos h]

theorem not_isStoreWord_of_start {v : Word} (h : ctrlStart v = true) : ¬ isStoreWord v = true := by
  rw [isStoreWord_iff, h]; decide

theorem decodeCtrlWrite_writeCommand {v : Word} (h : isWriteCommand v = true) :
    decodeCtrlWrite v = .ok (.xferW v) := by
  obtain ⟨-, -, hstart, -⟩ := (isWriteCommand_iff v).1 h
  rw [decodeCtrlWrite_eq, if_neg (not_isStoreWord_of_start hstart), if_pos h]

theorem decodeCtrlWrite_readCommand {v : Word} (h : isReadCommand v = true) :
    decodeCtrlWrite v = .ok (.xferR v) := by
  obtain ⟨-, -, hstart, -, hwe⟩ := (isReadCommand_iff v).1 h
  have hw : ¬ isWriteCommand v = true := by rw [isWriteCommand_iff, hwe]; simp
  rw [decodeCtrlWrite_eq, if_neg (not_isStoreWord_of_start hstart), if_neg hw, if_pos h]

/-- A start that the engine accepts is a command word of one of the two rows. -/
theorem decodeCtrlWrite_accepted {v : Word} (hstart : ctrlStart v = true) (hen : ctrlEn v = true)
    (hdswap : ctrlDswap v = false) (hro : ctrlRo v = false) : ∃ i, decodeCtrlWrite v = .ok i := by
  cases hwe : ctrlWe v with
  | true =>
    have hv := (isWriteCommand_iff v).2 ⟨hen, hdswap, hstart, hro, hwe⟩
    exact ⟨_, decodeCtrlWrite_writeCommand hv⟩
  | false =>
    have hv := (isReadCommand_iff v).2 ⟨hen, hdswap, hstart, hro, hwe⟩
    exact ⟨_, decodeCtrlWrite_readCommand hv⟩

end Sys2Proof.Machine
end

section
/-! PROOFS. The decoder and the encoder are inverse, and the rows of the opcode table are disjoint
(spec/30_encoding.md R69, R70, R75). -/

namespace Sys2Proof.Machine

/-! ### Host accesses -/

theorem decode_wr32 (x : Reg) (v : Word) : decode (wr32 x v) = decodeWrite x v := by
  simp [wr32, decode]

theorem encode_decodeRead (x : Reg) : encode (decodeRead x) = rd32 x := by
  cases x <;> rfl

theorem wellFormed_decodeRead (x : Reg) : (decodeRead x).wellFormed = true := by
  cases x <;> rfl

/-- An instruction decoded from a host write is well-formed and encodes to that write. -/
theorem decodeWrite_eq_ok {x : Reg} {v : Word} {i : Instr} (h : decodeWrite x v = .ok i) :
    i.wellFormed = true ∧ encode i = wr32 x v := by
  cases x with
  | ctrl =>
    simp only [decodeWrite, decodeCtrlWrite_eq] at h
    split at h
    · cases h; exact ⟨‹_›, rfl⟩
    split at h
    · cases h; exact ⟨‹_›, rfl⟩
    split at h
    · cases h; exact ⟨‹_›, rfl⟩
    · cases h
  | addr => cases h; exact ⟨rfl, rfl⟩
  | dout => cases h; exact ⟨rfl, rfl⟩
  | din => cases h
  | status =>
    simp only [decodeWrite] at h
    split at h
    · rename_i hv; cases h; rw [hv]; exact ⟨rfl, rfl⟩
    · cases h

/-! ### CMD16 words -/

/-- The decoder reads register and index back from an accessor's word, and comes to the branch of
the word's base. -/
theorem decodeCmd16_accessorWord (x : Reg) (k : Fin 32) :
    decodeCmd16 (accessorWord 0x1000#16 x k.val) [] = .ok (.setb x k.val) ∧
    decodeCmd16 (accessorWord 0x2000#16 x k.val) [] = .ok (.clrb x k.val) ∧
    decodeCmd16 (accessorWord 0x3000#16 x k.val) [] = .ok (.getb x k.val) := by
  revert k
  cases x <;> decide

/-- An index in range is one of the 32. -/
theorem bitIndex_cases {n : Int} (h : bitIndexOk n = true) : ∃ k : Fin 32, n = (k.val : Int) := by
  have hn : 0 ≤ n ∧ n ≤ 31 := of_decide_eq_true h
  exact ⟨⟨n.toNat, by omega⟩, by simp; omega⟩

theorem decodeCmd16_twiDecode (code : Byte) :
    decodeCmd16 (0xC000#16 ||| code.setWidth 16) [] = .ok (.twiDecode code) := by
  revert code
  decide

/-- Settles O1: the accesses come back by their masks, the CMD16 words by evaluation over the
register, the index, the length or the code in them. -/
theorem decodeOfEncodeIsTheInstruction : Obligations.DecodeOfEncodeIsTheInstruction := by
  intro i h
  cases i with
  | ctrlLd => rfl
  | addrLd => rfl
  | doutLd => rfl
  | dinLd => rfl
  | statusLd => rfl
  | ctrlSt v => exact (decode_wr32 .ctrl v).trans (decodeCtrlWrite_store h)
  | xferW v => exact (decode_wr32 .ctrl v).trans (decodeCtrlWrite_writeCommand h)
  | xferR v => exact (decode_wr32 .ctrl v).trans (decodeCtrlWrite_readCommand h)
  | addrSt v => exact decode_wr32 .addr v
  | doutSt v => exact decode_wr32 .dout v
  | stclr => rfl
  | setb x n => obtain ⟨k, rfl⟩ := bitIndex_cases h; exact (decodeCmd16_accessorWord x k).1
  | clrb x n => obtain ⟨k, rfl⟩ := bitIndex_cases h; exact (decodeCmd16_accessorWord x k).2.1
  | getb x n => obtain ⟨k, rfl⟩ := bitIndex_cases h; exact (decodeCmd16_accessorWord x k).2.2
  | twiEnable => rfl
  | twiWrite slave len data =>
    rcases Laws.OnItsRow.length_cases h with rfl | rfl | rfl | rfl <;> rfl
  | twiRead slave len =>
    rcases Laws.OnItsRow.length_cases h with rfl | rfl | rfl | rfl <;> rfl
  | twiPoll => rfl
  | twiDecode code => exact decodeCmd16_twiDecode code

/-- A field of a CMD16 word, in its place, is the word under the field's mask. -/
theorem field_eq_and {i k : Nat} {mask : BitVec 16}
    (hmask : ∀ j : Fin 16, mask.getLsbD j = decide (i ≤ j.val ∧ j.val < i + k)) (op : BitVec 16) :
    (op.extractLsb' i k).setWidth 16 <<< i = op &&& mask := by
  apply BitVec.eq_of_getLsbD_eq
  intro j hj
  rw [BitVec.getLsbD_and, hmask ⟨j, hj⟩, BitVec.getLsbD_shiftLeft, BitVec.getLsbD_setWidth,
    BitVec.getLsbD_extractLsb']
  by_cases hi : i ≤ j
  · simp [hi, hj, show j - i < 16 by omega, show j - i < k ↔ j < i + k by omega,
      show i + (j - i) = j by omega, Bool.and_comm, -BitVec.getLsbD_eq_getElem]
  · simp [hi, show j < i by omega]

/-- The register's number, the index and the bits its row fixes are all of an accessor's word. -/
theorem accessorWord_fields (op : BitVec 16) :
    (op &&& 0xF1E0#16) ||| ((op.extractLsb' 9 3).setWidth 16 <<< 9) |||
      (op.extractLsb' 0 5).setWidth 16 = op := by
  have hindex := field_eq_and (i := 0) (k := 5) (mask := 0x001F#16) (by decide) op
  rw [BitVec.shiftLeft_zero] at hindex
  rw [field_eq_and (mask := 0x0E00#16) (by decide), hindex, ← BitVec.and_or_distrib_left,
    ← BitVec.and_or_distrib_left]
  exact BitVec.and_allOnes

theorem regOffset_of_regAt {off : Int} {x : Reg} (h : regAt off = some x) : off = regOffset x := by
  unfold regAt at h
  repeat (split at h; · cases h; assumption)
  cases h

/-- A word on the row with this base is the accessor's word of the fields the decoder reads. -/
theorem accessorWord_of_fields {base op : BitVec 16} {x : Reg} (hbase : op &&& 0xF1E0#16 = base)
    (hx : regAt (4 * ((op.extractLsb' 9 3).toNat : Int)) = some x) :
    accessorWord base x ((op.extractLsb' 0 5).toNat : Int) = op := by
  have hdiv : regOffset x / 4 = ((op.extractLsb' 9 3).toNat : Int) := by
    rw [← regOffset_of_regAt hx, Int.mul_ediv_cancel_left _ (by decide)]
  rw [accessorWord, hdiv, BitVec.ofInt_natCast, BitVec.ofInt_natCast, BitVec.ofNat_toNat,
    BitVec.ofNat_toNat, ← hbase]
  exact accessorWord_fields op

/-- The two shapes an accessor's decoding needs: a register's number and no operand word. -/
theorem decodeAccessor_eq_ok {mk : Reg → Int → Instr} {op : BitVec 16} {operands : List Word}
    {i : Instr} (h : decodeAccessor mk op operands = .ok i) :
    ∃ x, regAt (4 * ((op.extractLsb' 9 3).toNat : Int)) = some x ∧ operands = [] ∧
      i = mk x ((op.extractLsb' 0 5).toNat : Int) := by
  unfold decodeAccessor at h
  split at h
  · rename_i x hx
    cases h
    exact ⟨x, hx, rfl, rfl⟩
  · cases h

theorem bitIndexOk_extract (op : BitVec 16) :
    bitIndexOk ((op.extractLsb' 0 5).toNat : Int) = true := by
  have := (op.extractLsb' 0 5).isLt
  exact decide_eq_true (by omega)

theorem withoutOperands_eq_ok {i j : Instr} {operands : List Word}
    (h : withoutOperands j operands = .ok i) : operands = [] ∧ i = j := by
  cases operands with
  | nil => cases h; exact ⟨rfl, rfl⟩
  | cons _ _ => cases h

theorem lengthOk_cmd16Length (op : BitVec 16) : lengthOk (cmd16Length op) = true := by
  have := (op.extractLsb' 0 2).isLt
  exact decide_eq_true (by simp only [Config.lenMin, Config.lenMax, cmd16Length]; omega)

/-- A transfer's word is its row's bits and the length the decoder reads. -/
theorem lengthWord_fields {base op : BitVec 16} (hbase : op &&& 0xFFFC#16 = base) :
    base ||| BitVec.ofInt 16 (cmd16Length op - 1) = op := by
  have hlen := field_eq_and (i := 0) (k := 2) (mask := 0x0003#16) (by decide) op
  rw [BitVec.shiftLeft_zero] at hlen
  rw [cmd16Length, Int.add_sub_cancel, BitVec.ofInt_natCast, BitVec.ofNat_toNat, hlen, ← hbase,
    ← BitVec.and_or_distrib_left]
  exact BitVec.and_allOnes

/-- TWI.DECODE's word is its row's bits and the code. -/
theorem codeWord_fields {op : BitVec 16} (hbase : op &&& 0xFF00#16 = 0xC000#16) :
    0xC000#16 ||| (op.extractLsb' 0 8).setWidth 16 = op := by
  have hcode := field_eq_and (i := 0) (k := 8) (mask := 0x00FF#16) (by decide) op
  rw [BitVec.shiftLeft_zero] at hcode
  rw [hcode, ← hbase, ← BitVec.and_or_distrib_left]
  exact BitVec.and_allOnes

/-- An accessor decoded from a CMD16 word on its row is well-formed and encodes to that word. -/
theorem decodeAccessor_encodesBack {mk : Reg → Int → Instr} {base op : BitVec 16}
    {operands : List Word} {i : Instr}
    (hmk : ∀ x n, (mk x n).wellFormed = bitIndexOk n ∧
      encode (mk x n) = .cmd16 (accessorWord base x n) [])
    (hbase : op &&& 0xF1E0#16 = base) (h : decodeAccessor mk op operands = .ok i) :
    i.wellFormed = true ∧ encode i = .cmd16 op operands := by
  obtain ⟨x, hx, rfl, rfl⟩ := decodeAccessor_eq_ok h
  obtain ⟨hwf, hencode⟩ := hmk x ((op.extractLsb' 0 5).toNat : Int)
  rw [hwf, hencode, accessorWord_of_fields hbase hx]
  exact ⟨bitIndexOk_extract op, rfl⟩

/-- An instruction decoded from a CMD16 word is well-formed and encodes to that word. -/
theorem decodeCmd16_eq_ok {op : BitVec 16} {operands : List Word} {i : Instr}
    (h : decodeCmd16 op operands = .ok i) :
    i.wellFormed = true ∧ encode i = .cmd16 op operands := by
  unfold decodeCmd16 at h
  split at h
  case isTrue hbase => exact decodeAccessor_encodesBack (fun _ _ => ⟨rfl, rfl⟩) hbase h
  split at h
  case isTrue hbase => exact decodeAccessor_encodesBack (fun _ _ => ⟨rfl, rfl⟩) hbase h
  split at h
  case isTrue hbase => exact decodeAccessor_encodesBack (fun _ _ => ⟨rfl, rfl⟩) hbase h
  split at h
  case isTrue hop => obtain ⟨rfl, rfl⟩ := withoutOperands_eq_ok h; rw [hop]; exact ⟨rfl, rfl⟩
  split at h
  case isTrue hbase =>
    split at h
    · cases h
      exact ⟨lengthOk_cmd16Length op, by rw [encode, lengthWord_fields hbase]⟩
    · cases h
  split at h
  case isTrue hbase =>
    split at h
    · cases h
      exact ⟨lengthOk_cmd16Length op, by rw [encode, lengthWord_fields hbase]⟩
    · cases h
  split at h
  case isTrue hop => obtain ⟨rfl, rfl⟩ := withoutOperands_eq_ok h; rw [hop]; exact ⟨rfl, rfl⟩
  split at h
  case isTrue hbase =>
    obtain ⟨rfl, rfl⟩ := withoutOperands_eq_ok h
    exact ⟨rfl, by rw [encode, codeWord_fields hbase]⟩
  · cases h

/-- An instruction decoded from any command is well-formed and encodes to that command. -/
theorem decode_eq_ok {c : Command} {i : Instr} (h : decode c = .ok i) :
    i.wellFormed = true ∧ encode i = c := by
  cases c with
  | read width off =>
    simp only [decode] at h
    split at h
    · cases h
    · rename_i x hx
      obtain ⟨rfl, rfl⟩ := windowReg_eq_ok.1 hx
      cases h
      exact ⟨wellFormed_decodeRead x, encode_decodeRead x⟩
  | write width off v =>
    simp only [decode] at h
    split at h
    · cases h
    · rename_i x hx
      obtain ⟨rfl, rfl⟩ := windowReg_eq_ok.1 hx
      exact decodeWrite_eq_ok h
  | cmd16 op operands => exact decodeCmd16_eq_ok h

/-! ### The rows of the table -/

/-- The encoding of every well-formed instruction lies on its row. -/
theorem encode_onItsRow (i : Instr) : Laws.OnItsRow.Statement i := by
  cases i with
  | ctrlLd => exact Laws.OnItsRow.ctrlLd
  | ctrlSt v => exact Laws.OnItsRow.ctrlSt v
  | xferW v => exact Laws.OnItsRow.xferW v
  | xferR v => exact Laws.OnItsRow.xferR v
  | addrLd => exact Laws.OnItsRow.addrLd
  | addrSt v => exact Laws.OnItsRow.addrSt v
  | doutLd => exact Laws.OnItsRow.doutLd
  | doutSt v => exact Laws.OnItsRow.doutSt v
  | dinLd => exact Laws.OnItsRow.dinLd
  | statusLd => exact Laws.OnItsRow.statusLd
  | stclr => exact Laws.OnItsRow.stclr
  | setb x n => exact Laws.OnItsRow.setb x n
  | clrb x n => exact Laws.OnItsRow.clrb x n
  | getb x n => exact Laws.OnItsRow.getb x n
  | twiEnable => exact Laws.OnItsRow.twiEnable
  | twiWrite slave len data => exact Laws.OnItsRow.twiWrite slave len data
  | twiRead slave len => exact Laws.OnItsRow.twiRead slave len
  | twiPoll => exact Laws.OnItsRow.twiPoll
  | twiDecode code => exact Laws.OnItsRow.twiDecode code

/-- Settles O2: a decoded instruction is well-formed and encodes back, and an encoding lies on its
row. -/
theorem decodedCommandIsWellFormedAndEncodesBack :
    Obligations.DecodedCommandIsWellFormedAndEncodesBack := by
  intro c i h
  obtain ⟨hwf, rfl⟩ := decode_eq_ok h
  exact ⟨hwf, encode_onItsRow i hwf, rfl⟩

/-- The 19 rows of spec/opcode_table.json. -/
def tableRows : List TableRow :=
  [.read 0x00, .write 0x00 0x00000040#32 0x00000000#32, .write 0x00 0x81000070#32 0x80000050#32,
    .write 0x00 0x81000070#32 0x80000040#32, .read 0x08, .write 0x08 0x00000000#32 0x00000000#32,
    .read 0x0C, .write 0x0C 0x00000000#32 0x00000000#32, .read 0x10, .read 0x14,
    .write 0x14 0xFFFFFFFF#32 0x00000003#32, .cmd16 0xF1E0#16 0x1000#16 0,
    .cmd16 0xF1E0#16 0x2000#16 0, .cmd16 0xF1E0#16 0x3000#16 0, .cmd16 0xFFFF#16 0x8000#16 0,
    .cmd16 0xFFFC#16 0x9000#16 2, .cmd16 0xFFFC#16 0xA000#16 1, .cmd16 0xFFFF#16 0xB000#16 0,
    .cmd16 0xFF00#16 0xC000#16 0]

theorem row_mem_tableRows (i : Instr) : i.row ∈ tableRows := by
  cases i <;> simp [Instr.row, tableRows]

/-- Whether some command could fall under both rows: the same kind and offset or operand count, and
matches that agree wherever both masks look. -/
def rowsMeet : TableRow → TableRow → Bool
  | .read off, .read off' => off == off'
  | .write off mask value, .write off' mask' value' =>
    off == off' && value &&& mask' == value' &&& mask
  | .cmd16 mask value k, .cmd16 mask' value' k' =>
    value &&& mask' == value' &&& mask && k == k'
  | _, _ => false

theorem row_of_read {r : TableRow} {width : Nat} {off : Int}
    (h : r.admits (.read width off) = true) : r = .read off := by
  cases r <;> simp_all [TableRow.admits]

theorem row_of_write {r : TableRow} {width : Nat} {off : Int} {v : Word}
    (h : r.admits (.write width off v) = true) : ∃ mask, r = .write off mask (v &&& mask) := by
  cases r <;> simp_all [TableRow.admits]

theorem row_of_cmd16 {r : TableRow} {op : BitVec 16} {operands : List Word}
    (h : r.admits (.cmd16 op operands) = true) :
    ∃ mask, r = .cmd16 mask (op &&& mask) operands.length := by
  cases r <;> simp_all [TableRow.admits]

theorem and_and_swap {n : Nat} (v mask mask' : BitVec n) :
    (v &&& mask) &&& mask' = (v &&& mask') &&& mask := by
  rw [BitVec.and_assoc, BitVec.and_comm mask, BitVec.and_assoc]

theorem rowsMeet_of_admits {r r' : TableRow} {c : Command} (h : r.admits c = true)
    (h' : r'.admits c = true) : rowsMeet r r' = true := by
  cases c with
  | read width off =>
    rw [row_of_read h, row_of_read h']
    exact beq_self_eq_true off
  | write width off v =>
    obtain ⟨mask, rfl⟩ := row_of_write h
    obtain ⟨mask', rfl⟩ := row_of_write h'
    simp [rowsMeet, and_and_swap v mask]
  | cmd16 op operands =>
    obtain ⟨mask, rfl⟩ := row_of_cmd16 h
    obtain ⟨mask', rfl⟩ := row_of_cmd16 h'
    simp [rowsMeet, and_and_swap op mask]

/-- Settles O3: rows that one command falls under meet, and no two different rows of the table do.
-/
theorem tableRowsNeverOverlap : Obligations.TableRowsNeverOverlap := by
  have disjoint : ∀ r ∈ tableRows, ∀ r' ∈ tableRows, rowsMeet r r' = true → r = r' := by decide
  intro i j c hi hj
  exact disjoint _ (row_mem_tableRows i) _ (row_mem_tableRows j) (rowsMeet_of_admits hi hj)

/-- Settles O4, by evaluation of the decoder. -/
theorem wordsOfTheSpecDecode : Obligations.WordsOfTheSpecDecode :=
  ⟨rfl, rfl, rfl, rfl, rfl, rfl, rfl, rfl, rfl, rfl, rfl⟩

end Sys2Proof.Machine
end

section
/-! PROOFS. What a step can do, said once: the events (spec/60_exceptions.md R188), the commands
(spec/43_sequencer.md R147) and the register accesses a command is made of (spec/20_memory.md R50).
-/

namespace Sys2Proof.Machine

/-! ### Encoded commands -/

/-- A host write that answers while IDLE is an operation of the table. -/
theorem decodeWrite_of_writeIdle {x : Reg} {v : Word} {s t : State}
    (h : writeIdle x v s = .ok () t) : ∃ i, decodeWrite x v = .ok i := by
  rcases writeIdle_eq_ok h with ⟨rfl, hv, -⟩ | ⟨rfl, hs, he, hd, hr, -⟩ | ⟨rfl, -⟩ | ⟨rfl, -⟩ |
    ⟨rfl, hv, -⟩
  · exact ⟨_, decodeCtrlWrite_store ((isStoreWord_iff v).2 hv)⟩
  · exact decodeCtrlWrite_accepted hs he hd hr
  · exact ⟨_, rfl⟩
  · exact ⟨_, rfl⟩
  · exact ⟨.stclr, if_pos hv⟩

theorem writeCommand_eq_next {x : Reg} {v : Word} {s t : State}
    (h : writeCommand x v s = .next t) :
    s.ready = true ∧ ∃ u, writeReg x v s = .ok () u ∧ t = { u with result := .nothing } := by
  obtain ⟨hready, r, u, hk, rfl⟩ := command_eq_next h
  rw [writePort_regOffset] at hk
  obtain ⟨_, _, hw, hr⟩ := bind_eq_ok.1 hk
  cases hr
  exact ⟨hready, _, hw, rfl⟩

theorem issueCommand_ok {c : Command} {i : Instr} (s : State) (h : decode c = .ok i) :
    issueCommand c s = exec i s := by
  rw [issueCommand, h]

theorem issueCommand_error {c : Command} {r : Reject} (s : State) (h : decode c = .error r) :
    issueCommand c s = rawCommand c s := by
  rw [issueCommand, h]

theorem readPort_error {width : Nat} {off : Int} {r : AccessReject} (s : State)
    (h : windowReg width off = .error r) : readPort width off s = .refused (refusalOf r) := by
  rw [readPort.eq_def, h]

theorem writePort_error {width : Nat} {off : Int} {r : AccessReject} (v : Word) (s : State)
    (h : windowReg width off = .error r) : writePort width off v s = .refused (refusalOf r) := by
  rw [writePort.eq_def, h]

/-- Settles O18: a raw access that answers reaches a register and is an operation of the table. -/
theorem undecodableCommandNeverRuns : Obligations.UndecodableCommandNeverRuns := by
  intro c r s t hc h
  cases c with
  | read width off =>
    rw [issueCommand_error s hc, rawCommand] at h
    obtain ⟨-, v, u, hk, -⟩ := command_eq_next h
    cases hx : windowReg width off with
    | error r' => rw [readPort_error s hx] at hk; cases hk
    | ok x => rw [decode, hx] at hc; cases hc
  | write width off v =>
    cases hx : windowReg width off with
    | error r' =>
      rw [issueCommand_error s hc, rawCommand] at h
      obtain ⟨-, _, u, hk, -⟩ := command_eq_next h
      rw [writePort_error v s hx] at hk
      cases hk
    | ok x =>
      obtain ⟨rfl, rfl⟩ := windowReg_eq_ok.1 hx
      rw [issueCommand_write] at h
      obtain ⟨-, u, hw, -⟩ := writeCommand_eq_next h
      obtain ⟨-, u', hi, -⟩ := writeReg_eq_ok hw
      obtain ⟨i, hd⟩ := decodeWrite_of_writeIdle hi
      rw [decode, hx] at hc
      exact nomatch hd.symm.trans hc
  | cmd16 op operands =>
    rw [issueCommand_error s hc, rawCommand] at h
    obtain ⟨-, v, u, hk, -⟩ := command_eq_next h
    cases hk

/-- An encoded command that answers ran the instruction it decodes to. -/
theorem issueCommand_eq_next {c : Command} {s t : State} (h : issueCommand c s = .next t) :
    ∃ i, decode c = .ok i ∧ exec i s = .next t := by
  cases hc : decode c with
  | error r => exact absurd h (undecodableCommandNeverRuns c r s t hc)
  | ok i => exact ⟨i, rfl, issueCommand_ok s hc ▸ h⟩

/-! ### Steps -/

theorem endOfCommand_eq_next {o : Host.Outcome State Fault Refusal} {t : State}
    (h : endOfCommand o = .next t) :
    ∃ u, o = .next u ∧ endOfCommand (.next u) = .next t := by
  cases o with
  | next u => exact ⟨u, rfl, h⟩
  | fault f => cases h
  | refused r => cases h

/-- The state after a command is the command's, but for the host's list at a fatal end. -/
theorem endOfCommand_next {u t : State} (h : endOfCommand (.next u) = .next t) :
    t = { u with program := if u.halt then dropToNewRun u.program else u.program } := by
  simp only [endOfCommand] at h
  split at h
  case isTrue hhalt => cases h; rw [if_pos hhalt]
  case isFalse hhalt => cases h; rw [if_neg hhalt]

/-- The three kinds of step that answer: the engine's opportunity alone, a new process, and one
instruction. -/
theorem step_eq_next {s t : State} (h : step s = .next t) :
    (t = idleStep { s with program := s.program.tail }) ∨
    (∃ rest, s.program = .newRun :: rest ∧ t = newProcess { s with program := rest }) ∨
    (∃ e rest i u, s.program = e :: rest ∧ exec i { s with program := rest } = .next u ∧
      t = { u with program := if u.halt then dropToNewRun u.program else u.program }) := by
  cases hp : s.program with
  | nil =>
    rw [step, nextEvent, hp] at h
    obtain rfl : idleStep s = t := Host.Outcome.next.inj h
    refine .inl (congrArg idleStep ?_)
    rw [List.tail_nil, ← hp]
  | cons e rest =>
    rw [step, nextEvent, hp] at h
    cases e with
    | issue c =>
      obtain ⟨u, hu, ht⟩ := endOfCommand_eq_next h
      obtain ⟨i, -, hi⟩ := issueCommand_eq_next hu
      exact .inr (.inr ⟨_, _, i, u, rfl, hi, endOfCommand_next ht⟩)
    | call i =>
      obtain ⟨u, hi, ht⟩ := endOfCommand_eq_next h
      exact .inr (.inr ⟨_, _, i, u, rfl, hi, endOfCommand_next ht⟩)
    | wait => cases h; exact .inl rfl
    | newRun => cases h; exact .inr (.inl ⟨rest, rfl, rfl⟩)

/-! ### Register accesses -/

/-- `t` comes from `s` by register accesses alone: of the sequencer only `step` may count, the
host's fields stay, and the register block keeps its part of the invariant. -/
def accessed (s t : State) : Prop :=
  sameSequencer s { t with stepIdx := s.stepIdx } ∧ sameHost s t ∧ (blockInv s → blockInv t)

theorem accessed_trans {s t u : State} (h : accessed s t) (k : accessed t u) : accessed s u := by
  obtain ⟨hseq, hhost, hblock⟩ := h
  obtain ⟨kseq, khost, kblock⟩ := k
  refine ⟨?_, sameHost_trans hhost khost, kblock ∘ hblock⟩
  unfold sameSequencer at *
  simp_all

theorem accessed_of_frame {s t : State} (h : sameSequencer s t ∧ sameHost s t)
    (hb : blockInv s → blockInv t) : accessed s t :=
  ⟨⟨h.1.1, rfl, h.1.2.2⟩, h.2, hb⟩

theorem accessed_countSteps (k : Nat) (s : State) : accessed s (countSteps k s) :=
  ⟨⟨rfl, rfl, rfl, rfl, rfl, rfl, rfl, rfl⟩, ⟨rfl, rfl, rfl⟩,
    fun h => blockInv_congr h rfl rfl rfl rfl rfl rfl⟩

/-- An operation that is made of register accesses. -/
def accesses {α : Type} (f : State → Run α) : Prop :=
  ∀ (s t : State) (a : α), f s = .ok a t → accessed s t

theorem accesses_bind {α β : Type} {f : State → Run α} {g : α → State → Run β} (hf : accesses f)
    (hg : ∀ a, accesses (g a)) : accesses fun s => (f s).bind g := by
  intro s t b h
  obtain ⟨a, u, h1, h2⟩ := bind_eq_ok.1 h
  exact accessed_trans (hf s u a h1) (hg a u t b h2)

theorem accesses_counted {α : Type} (k : Nat) {f : State → Run α} (hf : accesses f) :
    accesses fun s => counted k (f s) := by
  intro s t a h
  obtain ⟨u, hu, rfl⟩ := counted_eq_ok.1 h
  exact accessed_trans (hf s u a hu) (accessed_countSteps k u)

theorem accesses_readReg (x : Reg) : accesses (readReg x) :=
  fun _ _ _ h => accessed_of_frame (readReg_frame h) (readReg_blockInv h)

theorem accesses_writeReg (x : Reg) (v : Word) : accesses (writeReg x v) :=
  fun _ _ _ h => accessed_of_frame (writeReg_frame h) (writeReg_blockInv h)

theorem accesses_setBit (x : Reg) (n : Nat) : accesses (setBit x n) :=
  accesses_bind (accesses_readReg x) fun _ => accesses_writeReg x _

theorem accesses_clearBit (x : Reg) (n : Nat) : accesses (clearBit x n) :=
  accesses_bind (accesses_readReg x) fun _ => accesses_writeReg x _

theorem accesses_enableAccesses : accesses enableAccesses :=
  accesses_bind (accesses_counted 2 (accesses_setBit .ctrl 31)) fun _ =>
  accesses_bind (accesses_counted 2 (accesses_clearBit .ctrl 24)) fun _ =>
  accesses_counted 1 (accesses_writeReg .status _)

theorem accesses_writeAccesses (slave : Word) (len : Int) (data : Word) :
    accesses (writeAccesses slave len data) :=
  accesses_bind (accesses_counted 1 (accesses_readReg .ctrl)) fun _ =>
  accesses_bind (accesses_counted 1 (accesses_writeReg .ctrl _)) fun _ =>
  accesses_bind (accesses_counted 2 (accesses_clearBit .ctrl 5)) fun _ =>
  accesses_bind (accesses_counted 2 (accesses_setBit .ctrl 4)) fun _ =>
  accesses_bind (accesses_counted 1 (accesses_writeReg .dout data)) fun _ =>
  accesses_bind (accesses_counted 1 (accesses_writeReg .addr slave)) fun _ =>
  accesses_counted 2 (accesses_setBit .ctrl 6)

theorem accesses_readAccesses (slave : Word) (len : Int) : accesses (readAccesses slave len) :=
  accesses_bind (accesses_counted 1 (accesses_readReg .ctrl)) fun c =>
  accesses_bind (fun s _ _ h => accesses_counted 1
    (accesses_writeReg .ctrl (withRlen s.cfg.readLen c len)) s _ _ h) fun _ =>
  accesses_bind (accesses_counted 2 (accesses_clearBit .ctrl 4)) fun _ =>
  accesses_bind (accesses_counted 2 (accesses_clearBit .ctrl 5)) fun _ =>
  accesses_bind (accesses_counted 1 (accesses_writeReg .addr slave)) fun _ =>
  accesses_counted 2 (accesses_setBit .ctrl 6)

/-! ### Commands -/

/-- What an operation of the register port or an accessor keeps: the sequencer, the host's list, the
parameters, and the block's part of the invariant. -/
def portFrame (s t : State) : Prop :=
  sameSequencer s t ∧ t.program = s.program ∧ t.cfg = s.cfg ∧ (blockInv s → blockInv t)

/-- A command of the register port or an accessor: its accesses count no step. -/
theorem portCommand_eq_next {k : State → Run HostResult} {s t : State}
    (hk : ∀ u v, k s = .ok v u → accessed s u ∧ u.stepIdx = s.stepIdx)
    (h : command k s = .next t) : portFrame s t := by
  obtain ⟨-, v, u, hu, rfl⟩ := command_eq_next h
  obtain ⟨⟨⟨hseq, -, hrest⟩, ⟨hprogram, hcfg, -⟩, hblock⟩, hstep⟩ := hk u v hu
  exact ⟨⟨hseq, hstep, hrest⟩, hprogram, hcfg,
    fun hb => blockInv_congr (hblock hb) rfl rfl rfl rfl rfl rfl⟩

theorem readCommand_frame {x : Reg} {s t : State} (h : readCommand x s = .next t) :
    portFrame s t := by
  refine portCommand_eq_next (fun u v hu => ?_) h
  rw [readPort_regOffset] at hu
  obtain ⟨w, _, hr, hv⟩ := bind_eq_ok.1 hu
  cases hv
  exact ⟨accesses_readReg x s _ w hr, (readReg_frame hr).1.2.1⟩

theorem writeCommand_frame {x : Reg} {v : Word} {s t : State} (h : writeCommand x v s = .next t) :
    portFrame s t := by
  refine portCommand_eq_next (fun u v hu => ?_) h
  rw [writePort_regOffset] at hu
  obtain ⟨_, _, hw, hv⟩ := bind_eq_ok.1 hu
  cases hv
  exact ⟨accesses_writeReg x _ s _ _ hw, (writeReg_frame hw).1.2.1⟩

theorem withBitIndex_eq_ok {α : Type} {n : Int} {k : Nat → Run α} {a : α} {t : State}
    (h : withBitIndex n k = .ok a t) : k n.toNat = .ok a t := by
  unfold withBitIndex at h
  split at h
  · cases h
  · exact h

theorem execSetb_frame {x : Reg} {n : Int} {s t : State} (h : execSetb x n s = .next t) :
    portFrame s t := by
  refine portCommand_eq_next (fun u v hu => ?_) h
  obtain ⟨_, _, hb, hv⟩ := bind_eq_ok.1 (withBitIndex_eq_ok hu)
  cases hv
  exact ⟨accesses_setBit x _ s _ _ hb, (setBit_frame hb).1.2.1⟩

theorem execClrb_frame {x : Reg} {n : Int} {s t : State} (h : execClrb x n s = .next t) :
    portFrame s t := by
  refine portCommand_eq_next (fun u v hu => ?_) h
  obtain ⟨_, _, hb, hv⟩ := bind_eq_ok.1 (withBitIndex_eq_ok hu)
  cases hv
  exact ⟨accesses_clearBit x _ s _ _ hb, (clearBit_frame hb).1.2.1⟩

theorem execGetb_frame {x : Reg} {n : Int} {s t : State} (h : execGetb x n s = .next t) :
    portFrame s t := by
  refine portCommand_eq_next (fun u v hu => ?_) h
  obtain ⟨_, _, hb, hv⟩ := bind_eq_ok.1 (withBitIndex_eq_ok hu)
  cases hv
  obtain ⟨w, _, hr, hbit⟩ := bind_eq_ok.1 hb
  cases hbit
  exact ⟨accesses_readReg x s _ w hr, (readReg_frame hr).1.2.1⟩

theorem exec_portOrAccessor_frame {i : Instr} {s t : State} (hi : isPortOrAccessor i = true)
    (h : exec i s = .next t) : portFrame s t := by
  cases i with
  | ctrlLd => exact readCommand_frame (x := .ctrl) h
  | addrLd => exact readCommand_frame (x := .addr) h
  | doutLd => exact readCommand_frame (x := .dout) h
  | dinLd => exact readCommand_frame (x := .din) h
  | statusLd => exact readCommand_frame (x := .status) h
  | ctrlSt v => exact writeCommand_frame (x := .ctrl) h
  | xferW v => exact writeCommand_frame (x := .ctrl) h
  | xferR v => exact writeCommand_frame (x := .ctrl) h
  | addrSt v => exact writeCommand_frame (x := .addr) h
  | doutSt v => exact writeCommand_frame (x := .dout) h
  | stclr => exact writeCommand_frame (x := .status) h
  | setb x n => exact execSetb_frame h
  | clrb x n => exact execClrb_frame h
  | getb x n => exact execGetb_frame h
  | twiEnable => cases hi
  | twiWrite slave len data => cases hi
  | twiRead slave len => cases hi
  | twiPoll => cases hi
  | twiDecode code => cases hi

/-- Settles O45: the frame of the fourteen operations. -/
theorem portAndAccessorsLeaveTheSequencer : Obligations.PortAndAccessorsLeaveTheSequencer := by
  intro i s t hi h
  obtain ⟨hseq, hprogram, hcfg, -⟩ := exec_portOrAccessor_frame hi h
  exact ⟨hseq, hprogram, hcfg⟩

end Sys2Proof.Machine
end

section
/-! PROOFS. The machine's invariant through every step and every run (spec/10_state.md R16, R25 to
R30; spec/60_exceptions.md R174, R175, R188). -/

namespace Sys2Proof.Machine

theorem inv_iff {s : State} :
    s.Inv ↔ blockInv s ∧ s.haltMatchesSeq ∧ s.polls ≤ s.cfg.pollBound :=
  ⟨fun ⟨he, hh, hd, hp⟩ => ⟨⟨he, hd⟩, hh, hp⟩, fun ⟨⟨he, hd⟩, hh, hp⟩ => ⟨he, hh, hd, hp⟩⟩

/-- Outside ERROR and TIMEOUT the clause on the halt is `halt` = 0. -/
theorem haltMatchesSeq_of_running {s : State} (hseq : seqHalted s.seq = false)
    (hhalt : s.halt = false) : s.haltMatchesSeq := by
  refine ⟨hhalt.trans hseq.symm, fun h => ?_, fun h => ?_⟩ <;> rw [h] at hseq <;> cases hseq

theorem halt_of_ready {s : State} (h : s.haltMatchesSeq) (hready : s.ready = true) :
    s.halt = false :=
  h.1.trans (ready_iff.1 hready).1

/-- Settles O53: at reset the block is IDLE with CTRL zero, and the sequencer has not halted. -/
theorem invariantAtReset : Obligations.InvariantAtReset :=
  fun _ => inv_iff.2
    ⟨⟨show ctrlStart 0#32 = false from rfl, Nat.zero_le 4⟩, haltMatchesSeq_of_running rfl rfl,
      Nat.zero_le _⟩

theorem portFrame_inv {s t : State} (h : portFrame s t) (hs : s.Inv) : t.Inv := by
  obtain ⟨⟨hseq, -, hpolls, -, herr, hclass, hhalt, hexit⟩, -, hcfg, hblock⟩ := h
  obtain ⟨hb, hh, hp⟩ := inv_iff.1 hs
  refine inv_iff.2 ⟨hblock hb, ?_, by rwa [hpolls, hcfg]⟩
  unfold State.haltMatchesSeq at *
  rwa [hseq, herr, hclass, hhalt, hexit]

/-! ### The sequenced operations -/

/-- What the body of a sequenced operation keeps when it begins unhalted: the host's list and the
parameters; and the invariant holds after it. -/
def operationFrame (s t : State) : Prop :=
  t.program = s.program ∧ t.cfg = s.cfg ∧
    (s.halt = false → blockInv s → s.polls ≤ s.cfg.pollBound → t.Inv)

/-- The end of an operation after a poll that read done in a state with this `seq`: it halts
nothing. -/
def endsRunning (seq : Seq) (tail : State → Run HostResult) : Prop :=
  ∀ u v t, u.seq = seq → tail u = .ok v t →
    seqHalted t.seq = false ∧ t.halt = u.halt ∧ t.polls = u.polls ∧ t.program = u.program ∧
      t.cfg = u.cfg ∧ (blockInv u → blockInv t)

/-- A poll and what follows it, whether done or fatal. -/
theorem poll_then_tail_frame {s t : State} {tail : State → Run HostResult} {v : HostResult}
    (htail : endsRunning s.seq tail)
    (h : ((poll s).bind fun d u => if d then tail u else .ok .nothing u) = .ok v t) :
    operationFrame s t := by
  obtain ⟨d, u, hpoll, hbound, -, hprogram, hcfg, hend⟩ := poll_total s
  have hblock : blockInv s → blockInv u := poll_blockInv s u d hpoll
  rw [hpoll, bind_ok] at h
  rcases hend with ⟨rfl, hseq, hhalt, -⟩ | ⟨rfl, hseq, hhalt, hexit, hclass⟩ |
    ⟨rfl, hseq, hhalt, hexit, -⟩
  · obtain ⟨tseq, thalt, tpolls, tprogram, tcfg, tblock⟩ := htail u v t hseq h
    refine ⟨tprogram.trans hprogram, tcfg.trans hcfg, fun hrun hb _ => inv_iff.2
      ⟨tblock (hblock hb), haltMatchesSeq_of_running tseq (thalt.trans (hhalt.trans hrun)), ?_⟩⟩
    rwa [tpolls, tcfg, hcfg]
  · cases h
    refine ⟨hprogram, hcfg, fun _ hb _ => inv_iff.2 ⟨hblock hb, ⟨?_, ?_, ?_⟩, by rwa [hcfg]⟩⟩
    · rw [hhalt, hseq]; rfl
    · exact fun _ => ⟨hexit, hclass⟩
    · rw [hseq]; exact nofun
  · cases h
    refine ⟨hprogram, hcfg, fun _ hb _ => inv_iff.2 ⟨hblock hb, ⟨?_, ?_, ?_⟩, by rwa [hcfg]⟩⟩
    · rw [hhalt, hseq]; rfl
    · rw [hseq]; exact nofun
    · exact fun _ => hexit

/-- An operation's frame from before its accesses. -/
theorem operationFrame_of_accessed {s u t : State} (h : accessed s u) (ht : operationFrame u t) :
    operationFrame s t := by
  obtain ⟨⟨-, -, hpolls, -, -, -, hhalt, -⟩, ⟨hprogram, hcfg, -⟩, hblock⟩ := h
  obtain ⟨tprogram, tcfg, tinv⟩ := ht
  refine ⟨tprogram.trans hprogram, tcfg.trans hcfg,
    fun hrun hb hp => tinv (hhalt.trans hrun) (hblock hb) ?_⟩
  rw [hcfg]
  exact hpolls.trans_le hp

/-- An operation's frame from before it begins and enters its own state of the sequencer. -/
theorem operationFrame_of_begin {s t : State} {q : Seq}
    (h : operationFrame (beginOperation { s with seq := q }) t) : operationFrame s t := by
  obtain ⟨hprogram, hcfg, hinv⟩ := h
  exact ⟨hprogram, hcfg, fun hrun hb hp =>
    hinv hrun (blockInv_congr hb rfl rfl rfl rfl rfl rfl) hp⟩

theorem requireTransfer_eq_ok {α : Type} {len : Int} {s t : State} {k : Run α} {a : α}
    (h : requireTransfer len s k = .ok a t) : k = .ok a t := by
  unfold requireTransfer at h
  split at h
  · cases h
  split at h
  · exact h
  · cases h

theorem blockInv_setSeq {s : State} (q : Seq) (h : blockInv s) : blockInv { s with seq := q } :=
  blockInv_congr h rfl rfl rfl rfl rfl rfl

/-- What every instruction keeps when it answers. -/
def instrFrame (s t : State) : Prop := t.program = s.program ∧ t.cfg = s.cfg ∧ (s.Inv → t.Inv)

/-- A command whose body is a sequenced operation. -/
theorem operationCommand_frame {k : State → Run HostResult} {s t : State}
    (hk : ∀ u v, s.ready = true → k s = .ok v u → operationFrame s u) (h : command k s = .next t) :
    instrFrame s t := by
  obtain ⟨hready, v, u, hu, rfl⟩ := command_eq_next h
  obtain ⟨hprogram, hcfg, hinv⟩ := hk u v hready hu
  refine ⟨hprogram, hcfg, fun hs => ?_⟩
  obtain ⟨hb, hh, hp⟩ := inv_iff.1 hs
  exact hinv (halt_of_ready hh hready) hb hp

theorem execTwiEnable_frame {s t : State} (h : execTwiEnable s = .next t) : instrFrame s t := by
  refine operationCommand_frame (fun u v _ hu => ?_) h
  split at hu
  · obtain ⟨_, u', ha, hv⟩ := bind_eq_ok.1 hu
    cases hv
    refine operationFrame_of_begin (q := s.seq)
      (operationFrame_of_accessed (accesses_enableAccesses _ u' () ha) ⟨rfl, rfl, ?_⟩)
    exact fun hrun hb hp =>
      inv_iff.2 ⟨blockInv_setSeq _ hb, haltMatchesSeq_of_running rfl hrun, hp⟩
  · cases hu

theorem execTwiWrite_frame {slave data : Word} {len : Int} {s t : State}
    (h : execTwiWrite slave len data s = .next t) : instrFrame s t := by
  refine operationCommand_frame (fun u v _ hu => ?_) h
  obtain ⟨_, u', ha, hv⟩ := bind_eq_ok.1 (requireTransfer_eq_ok hu)
  refine operationFrame_of_begin (operationFrame_of_accessed
    (accesses_writeAccesses slave len data _ u' () ha)
    (poll_then_tail_frame (tail := fun u => .ok .nothing { u with seq := .done })
      (fun u v t _ htail => ?_) hv))
  cases htail
  exact ⟨rfl, rfl, rfl, rfl, rfl, blockInv_setSeq _⟩

theorem execTwiRead_frame {slave : Word} {len : Int} {s t : State}
    (h : execTwiRead slave len s = .next t) : instrFrame s t := by
  refine operationCommand_frame (fun u v _ hu => ?_) h
  obtain ⟨_, u', ha, hv⟩ := bind_eq_ok.1 (requireTransfer_eq_ok hu)
  refine operationFrame_of_begin (operationFrame_of_accessed
    (accesses_readAccesses slave len _ u' () ha)
    (poll_then_tail_frame (tail := fun u => (counted 1 (readReg .din u)).bind fun w u =>
      .ok (.word w) { u with value := w, seq := .done }) (fun u v t _ htail => ?_) hv))
  obtain ⟨w, x, hr, hx⟩ := bind_eq_ok.1 htail
  cases hx
  obtain ⟨⟨-, -, hpolls, -, -, -, hhalt, -⟩, ⟨hprogram, hcfg, -⟩, hblock⟩ :=
    accesses_counted 1 (accesses_readReg .din) u x w hr
  exact ⟨rfl, hhalt, hpolls, hprogram, hcfg,
    fun hb => blockInv_congr (hblock hb) rfl rfl rfl rfl rfl rfl⟩

theorem execTwiPoll_frame {s t : State} (h : execTwiPoll s = .next t) : instrFrame s t := by
  refine operationCommand_frame (fun u v hready hu => ?_) h
  refine operationFrame_of_begin (q := s.seq)
    (poll_then_tail_frame (tail := fun u => .ok .done u) (fun u v t hseq htail => ?_) hu)
  cases htail
  exact ⟨hseq ▸ (ready_iff.1 hready).1, rfl, rfl, rfl, rfl, id⟩

theorem execTwiDecode_frame {code : Byte} {s t : State} (h : execTwiDecode code s = .next t) :
    instrFrame s t := by
  obtain ⟨-, v, u, hu, rfl⟩ := command_eq_next h
  cases hu
  exact ⟨rfl, rfl, id⟩

/-- Every instruction that answers keeps the host's list, the parameters and the invariant. -/
theorem exec_frame {i : Instr} {s t : State} (h : exec i s = .next t) : instrFrame s t := by
  by_cases hi : isPortOrAccessor i = true
  · have hframe := exec_portOrAccessor_frame hi h
    exact ⟨hframe.2.1, hframe.2.2.1, portFrame_inv hframe⟩
  · cases i with
    | twiEnable => exact execTwiEnable_frame h
    | twiWrite slave len data => exact execTwiWrite_frame h
    | twiRead slave len => exact execTwiRead_frame h
    | twiPoll => exact execTwiPoll_frame h
    | twiDecode code => exact execTwiDecode_frame h
    | _ => exact absurd rfl hi

/-! ### Steps and runs -/

theorem idleStep_sameSequencer (s : State) (rest : List HostEvent) :
    sameSequencer s (idleStep { s with program := rest }) := by
  simp [sameSequencer, idleStep]

theorem idleStep_inv {s : State} (h : s.Inv) : (idleStep s).Inv := by
  obtain ⟨hb, hh, hp⟩ := inv_iff.1 h
  refine inv_iff.2
    ⟨blockInv_congr (engineTurn_blockInv hb) rfl rfl rfl rfl rfl rfl, ?_,
      by simpa [idleStep] using hp⟩
  simpa [State.haltMatchesSeq, idleStep] using hh

theorem newProcess_inv {s : State} (h : s.Inv) : (newProcess s).Inv := by
  obtain ⟨hb, -, -⟩ := inv_iff.1 h
  exact inv_iff.2 ⟨blockInv_congr hb rfl rfl rfl rfl rfl rfl, haltMatchesSeq_of_running rfl rfl,
    Nat.zero_le _⟩

/-- Settles O54: the three kinds of step, each keeping the block's part and the sequencer's part. -/
theorem everyStepKeepsTheInvariant : Obligations.EveryStepKeepsTheInvariant := by
  intro s t hs h
  rcases step_eq_next h with rfl | ⟨rest, -, rfl⟩ | ⟨e, rest, i, u, -, hexec, rfl⟩
  · exact idleStep_inv hs
  · exact newProcess_inv hs
  · exact (exec_frame hexec).2.2 hs

/-- Settles O56: no kind of step writes the parameters. -/
theorem noStepChangesTheParameters : Obligations.NoStepChangesTheParameters := by
  intro s t h
  rcases step_eq_next h with rfl | ⟨rest, -, rfl⟩ | ⟨e, rest, i, u, -, hexec, rfl⟩
  · simp [idleStep]
  · rfl
  · exact (exec_frame hexec).2.1

/-- START as the invariant gives it (R16). -/
theorem start_iff_pending {s : State} (h : s.engineMatchesCtrl) :
    s.ctrl.getLsbD 6 = true ↔ s.engine ≠ .idle := by
  unfold State.engineMatchesCtrl ctrlStart at h
  split at h
  · rename_i he; rw [h, he]; decide
  · rename_i c he; rw [h.1, he]; exact ⟨nofun, fun _ => rfl⟩

/-- Settles O55: the invariant holds at reset and through every run. -/
theorem startIsOneExactlyWhilePending : Obligations.StartIsOneExactlyWhilePending := by
  intro p program env k t h
  have hreset : ({ State.resetWith p with program := program, env := env } : State).Inv :=
    invariantAtReset p
  exact start_iff_pending
    (run_invariant core State.Inv everyStepKeepsTheInvariant k _ t hreset h).1

/-- Settles O47: in ERROR and TIMEOUT every command is refused, so a step that answers is a wait or
none of the host's. -/
theorem fatalStatesAreAbsorbing : Obligations.FatalStatesAreAbsorbing := by
  intro s t hs hhalt hrun h
  rcases step_eq_next h with rfl | ⟨rest, hp, -⟩ | ⟨e, rest, i, u, -, hexec, -⟩
  · exact idleStep_sameSequencer s _
  · exact absurd hp (hrun rest)
  · obtain ⟨k, hk⟩ := exec_is_command i
    obtain ⟨hready, -⟩ := command_eq_next ((hk _).symm.trans hexec)
    have := halt_of_ready (s := { s with program := rest }) hs.2.1 hready
    exact absurd (hhalt.symm.trans this) nofun

/-! ### The end of a process's commands -/

theorem dropToNewRun_suffix (l : List HostEvent) : ∃ pre, l = pre ++ dropToNewRun l := by
  induction l with
  | nil => exact ⟨[], rfl⟩
  | cons e rest ih =>
    cases e with
    | newRun => exact ⟨[], rfl⟩
    | _ => exact ih.imp' (_ :: ·) fun _ h => congrArg (_ :: ·) h

theorem listOver_of_dropToNewRun {s : State} {l : List HostEvent}
    (h : s.program = dropToNewRun l) : s.listOver = true := by
  unfold State.listOver
  rw [h]
  clear h
  induction l with
  | nil => rfl
  | cons e rest ih =>
    cases e with
    | newRun => rfl
    | _ => exact ih

/-- Settles O52: only a command sets `halt`, and its end then drops the events up to a new process.
-/
theorem fatalEndDropsTheRemainingCommands : Obligations.FatalEndDropsTheRemainingCommands := by
  intro s t e rest hp hhalt h thalt
  rcases step_eq_next h with rfl | ⟨rest', -, rfl⟩ | ⟨e', rest', i, u, hp', hexec, rfl⟩
  · simp [idleStep, hhalt] at thalt
  · cases thalt
  · obtain rfl : rest = rest' := (List.cons.inj (hp.symm.trans hp')).2
    have hdrop : (if u.halt then dropToNewRun u.program else u.program) = dropToNewRun rest := by
      rw [if_pos (by exact thalt), (exec_frame hexec).1]
    refine ⟨listOver_of_dropToNewRun hdrop, thalt, ?_⟩
    show ∃ pre, rest = pre ++ (if u.halt then dropToNewRun u.program else u.program)
    rw [hdrop]
    exact dropToNewRun_suffix rest

end Sys2Proof.Machine
end

section
/-! PROOFS. Length fields and byte lanes (spec/30_encoding.md R65, spec/20_memory.md R47). -/

namespace Sys2Proof.Machine

/-- Replacing the write length changes bits 2 and 3 only. -/
theorem withWlen_otherBit (c : Word) {len : Int} (h1 : 1 ≤ len) (h4 : len ≤ 4) {j : Nat}
    (h2 : j ≠ 2) (h3 : j ≠ 3) : (withWlen c len).getLsbD j = c.getLsbD j := by
  by_cases hj : 4 ≤ j
  · exact withWlen_bit c h1 h4 hj
  · have : j = 0 ∨ j = 1 := by omega
    rcases this with rfl | rfl <;>
      simp [withWlen, BitVec.getLsbD_or, BitVec.getLsbD_and, BitVec.getLsbD_shiftLeft,
        -BitVec.getLsbD_eq_getElem]

/-- Replacing the read length at bits 1:0 changes no other bit. -/
theorem withRlen_lsb0_otherBit (c : Word) {len : Int} (h1 : 1 ≤ len) (h4 : len ≤ 4) {j : Nat}
    (h2 : 2 ≤ j) : (withRlen .lsb0 c len).getLsbD j = c.getLsbD j := by
  by_cases hj : 4 ≤ j
  · exact withRlen_bit .lsb0 c h1 h4 hj
  · have : j = 2 ∨ j = 3 := by omega
    rw [withRlen, BitVec.getLsbD_or, lengthField_bit h1 h4 h2, BitVec.getLsbD_and]
    rcases this with rfl | rfl <;> simp [-BitVec.getLsbD_eq_getElem]

/-- Settles O5: the fields by `ctrlWlen_of_low` and `ctrlRlen_of_low`, the other bits by the masks.
-/
theorem lengthFieldHoldsLengthMinusOne : Obligations.LengthFieldHoldsLengthMinusOne := by
  intro c len h1 h4
  have hw := ctrlWlen_of_low c h1 h4 fun _ _ => rfl
  have hr := ctrlRlen_of_low c h1 h4 fun _ _ => rfl
  exact ⟨⟨by omega, fun j _ h2 h3 => withWlen_otherBit c h1 h4 h2 h3⟩,
    ⟨by omega, fun j h2 _ => withRlen_lsb0_otherBit c h1 h4 h2⟩, rfl⟩

/-- Four received bytes as one word, bit by bit. -/
theorem fromLanes_bit (b0 b1 b2 b3 : Byte) (j : Nat) :
    (fromLanes b0 b1 b2 b3).getLsbD j =
      if j < 8 then b0.getLsbD j else if j - 8 < 8 then b1.getLsbD (j - 8)
      else if j - 8 - 8 < 8 then b2.getLsbD (j - 8 - 8) else b3.getLsbD (j - 8 - 8 - 8) := by
  show BitVec.getLsbD (w := 8 + 8 + 8 + 8) (b3 ++ b2 ++ b1 ++ b0) j = _
  rw [BitVec.getLsbD_append, BitVec.getLsbD_append, BitVec.getLsbD_append]

/-- The bytes received come out of their lanes, the first on the bus from the low one. -/
theorem byteLane_fromLanes (b0 b1 b2 b3 : Byte) {k : Nat} (hk : k < 4) :
    byteLane (fromLanes b0 b1 b2 b3) k = [b0, b1, b2, b3].getD k 0#8 := by
  apply BitVec.eq_of_getLsbD_eq
  intro j hj
  rw [byteLane_bit, fromLanes_bit, decide_eq_true hj, Bool.true_and]
  have : k = 0 ∨ k = 1 ∨ k = 2 ∨ k = 3 := by omega
  rcases this with rfl | rfl | rfl | rfl
  · rw [if_pos (by omega), Nat.mul_zero, Nat.zero_add]; rfl
  · rw [if_neg (by omega), if_pos (by omega), show 8 * 1 + j - 8 = j by omega]; rfl
  · rw [if_neg (by omega), if_neg (by omega), if_pos (by omega),
      show 8 * 2 + j - 8 - 8 = j by omega]; rfl
  · rw [if_neg (by omega), if_neg (by omega), if_neg (by omega),
      show 8 * 3 + j - 8 - 8 - 8 = j by omega]; rfl

theorem busBytes_getElem? (d : Word) {n k : Nat} (hk : k < n) :
    (busBytes d n)[k]? = some (byteLane d k) := by
  rw [busBytes, List.getElem?_map, List.getElem?_range hk, Option.map_some]

/-- Settles O6: lane `k` is sent as byte `k`, and the lanes of four received bytes are those bytes.
-/
theorem busByteKIsLaneK : Obligations.BusByteKIsLaneK := by
  refine ⟨fun d n => ⟨by simp [busBytes], fun k hk => busBytes_getElem? d hk⟩, ?_⟩
  intro b0 b1 b2 b3
  have lane := fun k hk => byteLane_fromLanes b0 b1 b2 b3 (k := k) hk
  show [byteLane _ 0, byteLane _ 1, byteLane _ 2, byteLane _ 3] = _
  rw [lane 0 (by decide), lane 1 (by decide), lane 2 (by decide), lane 3 (by decide)]
  rfl

end Sys2Proof.Machine
end

section
/-! PROOFS. The register port: the window, the order of its checks, and each register's rule
(spec/20_memory.md R42 to R45, spec/40_register_port.md R79 to R92, spec/42_bus_engine.md R113). -/

namespace Sys2Proof.Machine

/-! ### The window -/

theorem windowReg_width {width : Nat} (off : Int) (h : width ≠ 32) :
    windowReg width off = .error .width :=
  if_pos h

theorem windowReg_misaligned {off : Int} (h : off % 4 ≠ 0) :
    windowReg 32 off = .error .misaligned := by
  rw [windowReg, if_neg (by decide), if_pos h]

theorem regAt_eq_none {off : Int} (h : ∀ x, off ≠ regOffset x) : regAt off = none := by
  cases hx : regAt off with
  | none => rfl
  | some x => exact absurd (regOffset_of_regAt hx) (h x)

theorem windowReg_unmapped {off : Int} (h4 : off % 4 = 0) (h : ∀ x, off ≠ regOffset x) :
    windowReg 32 off = .error .unmappedOffset := by
  rw [windowReg, if_neg (by decide), if_neg (not_not.2 h4), regAt_eq_none h]

/-- An access that reaches no register is refused by the reason's own name. -/
theorem issueCommand_of_windowReg_error {s : State} {width : Nat} {off : Int} {r : AccessReject}
    (v : Word) (hs : s.ready = true) (h : windowReg width off = .error r) :
    issueCommand (.read width off) s = .refused (refusalOf r) ∧
      issueCommand (.write width off v) s = .refused (refusalOf r) := by
  have hr : decode (.read width off) = .error (.access r) := by rw [decode, h]
  have hw : decode (.write width off v) = .error (.access r) := by rw [decode, h]
  rw [issueCommand_error s hr, issueCommand_error s hw, rawCommand, rawCommand,
    command_ready _ hs, command_ready _ hs, readPort_error s h, writePort_error v s h]
  exact ⟨rfl, rfl⟩

theorem ne_regOffset_of_not_mem {off : Int}
    (h : off ∉ [(0x00 : Int), 0x08, 0x0C, 0x10, 0x14]) (x : Reg) : off ≠ regOffset x := by
  rintro rfl
  cases x <;> exact h (by decide)

/-- Settles O7: the window's three checks by name, then the register's command. -/
theorem portChecksComeInOrder : Obligations.PortChecksComeInOrder := by
  intro s width off v hs
  refine ⟨fun hw => ?_, ?_, ?_, ?_⟩
  · exact issueCommand_of_windowReg_error v hs (windowReg_width off hw)
  · rintro rfl h
    exact issueCommand_of_windowReg_error v hs (windowReg_misaligned h)
  · rintro rfl h4 h
    exact issueCommand_of_windowReg_error v hs
      (windowReg_unmapped h4 (ne_regOffset_of_not_mem h))
  · rintro x rfl rfl
    refine ⟨?_, fun hp => ?_, fun hi => ?_⟩
    · exact (issueCommand_read x s).trans (exec_decodeRead x s).symm
    · exact (issueCommand_write x v s).trans (writeCommand_pending x v hs hp)
    · exact (issueCommand_write x v s).trans (writeCommand_idle x v hs hi)

/-- A register's offset as a distance above `TWI_BASE`. -/
theorem regOffset_toNat (x : Reg) : ((regOffset x).toNat : Int) = regOffset x := by
  cases x <;> rfl

theorem twiBase_mod_four : Config.twiBase % 4 = 0 := by
  rw [Config.twiBase]; omega

/-- Settles O8: an address is the base plus an offset, aligned exactly if the offset is. -/
theorem windowAtPhysicalAddresses : Obligations.WindowAtPhysicalAddresses := by
  have hslot := Config.twiSlot.isLt
  have hmod := twiBase_mod_four
  refine ⟨hmod, by rw [Config.twiBase]; omega, fun s v x => ?_, fun s v a ha => ?_⟩
  · have hoff : ((Config.twiBase + (regOffset x).toNat : Nat) : Int) - Config.twiBase =
        regOffset x := by
      rw [Int.natCast_add, regOffset_toNat]; omega
    rw [memRead, memWrite, hoff]
    exact ⟨readPort_regOffset x s, writePort_regOffset x v s⟩
  · have hne : ∀ x, (a : Int) - Config.twiBase ≠ regOffset x := by
      intro x hx
      have := regOffset_toNat x
      exact ha x (by omega)
    refine ⟨fun h4 => ?_, fun h4 => ?_⟩
    · have h := windowReg_unmapped (by omega) hne
      exact ⟨readPort_error s h, writePort_error v s h⟩
    · have h := windowReg_misaligned (off := (a : Int) - Config.twiBase) (by omega)
      exact ⟨readPort_error s h, writePort_error v s h⟩

end Sys2Proof.Machine
end

section
/-! PROOFS. Reads and writes of the five registers as commands (spec/40_register_port.md R80 to R92,
spec/42_bus_engine.md R113, R114). -/

namespace Sys2Proof.Machine

/-! ### Reads -/

/-- Settles O9: the engine's opportunity writes neither register. -/
theorem addrAndDoutReadBack : Obligations.AddrAndDoutReadBack := by
  intro s hs
  rw [← engineTurn_addr s, ← engineTurn_dout s]
  exact ⟨readCommand_ready .addr hs, readCommand_ready .dout hs⟩

/-- Where a plain store to CTRL ends. -/
theorem ctrlSt_eq_next {s t : State} {v : Word} (hv : ctrlStart v = false)
    (h : exec (.ctrlSt v) s = .next t) : t.ready = true ∧ t.engine = .idle ∧ t.ctrl = v := by
  obtain ⟨hready, u, hw, rfl⟩ := writeCommand_eq_next (x := .ctrl) h
  obtain ⟨he, u', hu', rfl⟩ := writeReg_eq_ok hw
  rw [writeIdle, writeCtrl_store _ hv] at hu'
  cases hu'
  refine ⟨?_, he, rfl⟩
  simpa [State.ready] using hready

/-- Settles O10: bit 6 by the block's invariant, the stored word by the store's state. -/
theorem ctrlReadsBack : Obligations.CtrlReadsBack := by
  intro s hs
  refine ⟨readCommand_ready .ctrl hs, fun hinv => ?_, fun v t hv h => ?_⟩
  · exact start_iff_pending (engineTurn_blockInv (inv_iff.1 hinv).1).1
  · obtain ⟨ht, hi, rfl⟩ := ctrlSt_eq_next hv h
    have hread := readCommand_ready .ctrl ht
    rwa [engineTurn_idle hi] at hread

/-- A completion never takes DONE back. -/
theorem engineTurn_done {s : State} (h : s.status.done = true) :
    (engineTurn s).status.done = true := by
  rcases engineTurn_cases s with ⟨-, e⟩ | ⟨c, -, e | ⟨w, r, e⟩⟩ <;> rw [e]
  · exact h
  · exact h
  · rw [complete_status]
    cases failureCode c w r with
    | none => rfl
    | some code => simp [completedFlags, h]

/-- A field of the STATUS word above bit 15 or between bits 1 and 8 is zero. -/
theorem statusWord_zeroField (f : Status) {i k : Nat}
    (h : ∀ j, j < k → 16 ≤ i + j ∨ 2 ≤ i + j ∧ i + j < 8) :
    (statusWord f).extractLsb' i k = 0#k := by
  apply BitVec.eq_of_getLsbD_eq
  intro j hj
  rw [BitVec.getLsbD_extractLsb', statusWord_bit, BitVec.getLsbD_zero]
  have hdone : decide (i + j = 1) = false := decide_eq_false (by have := h j hj; omega)
  have herr : decide (i + j = 0) = false := decide_eq_false (by have := h j hj; omega)
  have hcode : (decide (8 ≤ i + j) && f.code.getLsbD (i + j - 8)) = false := by
    rcases h j hj with h16 | ⟨-, h8⟩
    · rw [BitVec.getLsbD_of_ge _ _ (by omega), Bool.and_false]
    · rw [decide_eq_false (by omega), Bool.false_and]
  rw [hdone, herr, hcode, Bool.false_and, Bool.false_and, Bool.or_false, Bool.or_false,
    Bool.and_false]

/-- Settles O11: the fields of `statusWord`, and DONE through the engine's opportunity. -/
theorem statusReadsItsFields : Obligations.StatusReadsItsFields := by
  intro s hs
  refine ⟨statusWord (engineTurn s).status, readCommand_ready .status hs, rfl, statusWord_code _,
    statusWord_done _, statusWord_err _, statusWord_zeroField _ (by omega),
    statusWord_zeroField _ (by omega), fun h => ?_⟩
  rw [statusWord_done]
  exact engineTurn_done h

/-- Outside a pending read DIN's readable bytes lie under the draw. -/
theorem dinValue_overlay {s : State} (h : ∀ c, s.engine = .pending c → c.kind = .write) :
    dinValue s = overlay s.dinBytes s.din (Config.dinDraw s.tick) := by
  unfold dinValue
  split
  · rename_i n a d he; cases h _ he
  · rfl

/-- A lane of an overlay, for every number of known bytes. -/
theorem overlay_lane_any (n : Nat) (a b : Word) {k : Nat} (hk : k < 4) :
    (overlay n a b).extractLsb' (8 * k) 8 =
      if k < n then a.extractLsb' (8 * k) 8 else b.extractLsb' (8 * k) 8 := by
  by_cases hn : n ≤ 4
  · exact overlay_lane hn a b hk
  · rw [overlay, if_pos (by omega), if_pos (by omega)]

theorem completedDinBytes_zero {c : Latched} {w : WriteAnswer} {r : ReadAnswer}
    (h : c.kind = .write ∨ failureCode c w r ≠ none) : completedDinBytes c r = 0 := by
  unfold completedDinBytes
  unfold failureCode at h
  cases hk : c.kind with
  | write => rfl
  | read =>
    cases r with
    | data b0 b1 b2 b3 => simp [hk] at h
    | err code => rfl

/-- Settles O12: the value read is a draw or an overlay, by the engine's phase and the last
completion. -/
theorem dinReadsItsBytesAndDrawsTheRest : Obligations.DinReadsItsBytesAndDrawsTheRest := by
  intro s hs
  refine ⟨⟨dinValue (engineTurn s), readCommand_ready .din hs, fun c hc hk => ?_,
    fun hw k hk => ?_⟩, fun c w r h => ⟨?_, fun hk => ?_⟩⟩
  · rw [dinValue_draw (.inl ⟨c, hc, hk⟩), engineTurn_tick]
  · rw [dinValue_overlay hw, overlay_lane_any _ _ _ hk, engineTurn_tick]
  · have hread := readCommand_ready .din (s := complete c w r s) hs
    rwa [engineTurn_idle rfl, readValue, dinValue_draw (.inr (completedDinBytes_zero h))] at hread
  · rw [complete_din, completedDin.eq_def, hk]

/-- Settles O13: the engine holds, so each read returns the stored register. -/
theorem readsWhilePendingReturnTheRegisters : Obligations.ReadsWhilePendingReturnTheRegisters := by
  intro s c rest hs hinv hc he
  have read : ∀ x, readCommand x s = .next
      { s with
        env := rest, tick := s.tick + 1,
        result := .word (readValue x { s with env := rest }) } := by
    intro x
    rw [readCommand_ready x hs, engineTurn_hold hc he]
  refine ⟨(start_iff_pending hinv.1).2 (by rw [hc]; exact nofun), read .ctrl, read .addr,
    read .dout, read .status, fun h => ?_, fun hk => ⟨_, read .din, fun k hlt => ?_⟩⟩
  · have hdraw : dinValue { s with env := rest } = Config.dinDraw s.tick :=
      dinValue_draw (h.imp_left fun hk => ⟨c, hc, hk⟩)
    rw [← hdraw]
    exact read .din
  · have hbytes : s.dinBytes ≤ 4 := hinv.2.2.1
    rw [readValue, dinValue_overlay fun c' hc' => by cases hc.symm.trans hc'; exact hk,
      overlay_lane_any _ _ _ (by omega), if_pos hlt]

/-! ### Writes -/

/-- A write command the register's rule answers. -/
theorem writeCommand_next {x : Reg} {v : Word} {s u : State} (hs : s.ready = true)
    (hi : (engineTurn s).engine = .idle) (h : writeIdle x v (engineTurn s) = .ok () u) :
    writeCommand x v s = .next { u with tick := u.tick + 1, result := .nothing } := by
  rw [writeCommand_idle x v hs hi, h]
  rfl

/-- A write command the register's rule refuses. -/
theorem writeCommand_refused {x : Reg} {v : Word} {s : State} {e : Refusal} (hs : s.ready = true)
    (hi : (engineTurn s).engine = .idle) (h : writeIdle x v (engineTurn s) = .refused e) :
    writeCommand x v s = .refused e := by
  rw [writeCommand_idle x v hs hi, h]
  rfl

/-- Settles O14: the register's own rule while IDLE, the fault while PENDING. -/
theorem plainStoresReplaceTheirRegister : Obligations.PlainStoresReplaceTheirRegister := by
  intro s v hs
  rw [← engineTurn_tick s]
  refine ⟨fun hi => ⟨fun hv => ?_, ?_, ?_⟩, fun hp => ⟨?_, ?_, ?_⟩⟩
  · exact writeCommand_next hs hi (x := .ctrl) (writeCtrl_store _ hv)
  · exact writeCommand_next hs hi (x := .addr) rfl
  · exact writeCommand_next hs hi (x := .dout) rfl
  · exact writeCommand_pending .ctrl v hs hp
  · exact writeCommand_pending .addr v hs hp
  · exact writeCommand_pending .dout v hs hp

theorem issueCommand_wr32 (x : Reg) (v : Word) (s : State) :
    issueCommand (wr32 x v) s = writeCommand x v s :=
  issueCommand_write x v s

theorem writeStatus_refused {v : Word} (s : State) (h : v ≠ 0x00000003#32) :
    writeStatus v s = .refused .statusValue :=
  if_neg h

/-- Settles O15: the rule of STATUS for the literal 3 and for other values, and the fault. -/
theorem stclrClearsTheFlagsOnly : Obligations.StclrClearsTheFlagsOnly := by
  intro s hs
  rw [← engineTurn_tick s]
  refine ⟨fun hi => ⟨writeCommand_next hs hi (x := .status) (v := 0x00000003#32) rfl,
    fun v hv => ?_⟩, fun hp => ⟨writeCommand_pending .status _ hs hp, fun v => ?_⟩⟩
  · rw [issueCommand_wr32]
    exact writeCommand_refused hs hi (x := .status) (writeStatus_refused _ hv)
  · rw [issueCommand_wr32]
    exact writeCommand_pending .status v hs hp

/-- Settles O17: each is a write command. -/
theorem anyWriteWhilePendingFaults : Obligations.AnyWriteWhilePendingFaults := by
  intro s c hs hc
  have fault : ∀ x v, writeCommand x v s = .fault .writeWhilePending := fun x v =>
    writeCommand_pending x v hs (by rw [hc]; exact nofun)
  exact ⟨fun x v => (issueCommand_wr32 x v s).trans (fault x v),
    fun v => ⟨fault .ctrl v, fault .ctrl v, fault .ctrl v, fault .addr v, fault .dout v⟩,
    fault .status _⟩

/-! ### Starts -/

theorem writeCtrl_disabled {v : Word} (s : State) (hs : ctrlStart v = true)
    (he : ctrlEn v = false) : writeCtrl v s = .refused .startWhileDisabled := by
  rw [writeCtrl, if_pos hs, if_pos he]

theorem writeCtrl_dswap {v : Word} (s : State) (hs : ctrlStart v = true) (he : ctrlEn v = true)
    (hd : ctrlDswap v = true) : writeCtrl v s = .refused .dswapSet := by
  rw [writeCtrl, if_pos hs, if_neg (by rw [he]; decide), if_pos hd]

theorem writeCtrl_ro {v : Word} (s : State) (hs : ctrlStart v = true) (he : ctrlEn v = true)
    (hd : ctrlDswap v = false) (hr : ctrlRo v = true) : writeCtrl v s = .refused .roSet := by
  rw [writeCtrl, if_pos hs, if_neg (by rw [he]; decide), if_neg (by rw [hd]; decide), if_pos hr]

/-- Settles O19: the four conditions in their order. -/
theorem startIsAcceptedOnlyIfEnabledAndClear :
    Obligations.StartIsAcceptedOnlyIfEnabledAndClear := by
  intro s v hs hv
  rw [issueCommand_wr32]
  refine ⟨fun hp => writeCommand_pending .ctrl v hs hp, fun hi => ⟨fun he => ?_, fun he hd => ?_,
    fun he hd hr => ?_, fun he hd hr => ?_⟩⟩
  · exact writeCommand_refused hs hi (x := .ctrl) (writeCtrl_disabled _ hv he)
  · exact writeCommand_refused hs hi (x := .ctrl) (writeCtrl_dswap _ hv he hd)
  · exact writeCommand_refused hs hi (x := .ctrl) (writeCtrl_ro _ hv he hd hr)
  · exact ⟨_, _, writeCommand_next hs hi (x := .ctrl) (writeCtrl_accept _ hv he hd hr), rfl, rfl⟩

/-- Settles O20: acceptance captures the latched command; completion reads none of ADDR and DOUT. -/
theorem acceptanceLatchesTheCommand : Obligations.AcceptanceLatchesTheCommand := by
  refine ⟨fun s v hs hi => ⟨fun hv => ?_, fun hv => ?_⟩, fun c w r s a d => rfl⟩
  · obtain ⟨he, hd, hst, hr, hw⟩ := (isWriteCommand_iff v).1 hv
    refine (writeCommand_next hs hi (x := .ctrl) (writeCtrl_accept _ hst he hd hr)).trans ?_
    simp only [accept, latch, commandLength, hw, if_true, engineTurn_addr, engineTurn_dout,
      engineTurn_tick, engineTurn_cfg]
    rfl
  · obtain ⟨he, hd, hst, hr, hw⟩ := (isReadCommand_iff v).1 hv
    refine (writeCommand_next hs hi (x := .ctrl) (writeCtrl_accept _ hst he hd hr)).trans ?_
    simp only [accept, latch, commandLength, hw, Bool.false_eq_true, if_false, engineTurn_addr,
      engineTurn_dout, engineTurn_tick, engineTurn_cfg]
    rfl

end Sys2Proof.Machine
end

section
/-! PROOFS. The bus engine (spec/42_bus_engine.md R112, R116, R117, R120). -/

namespace Sys2Proof.Machine

/-- At the script's end the free schedule decides, and the bus is asked the latched question. -/
theorem engineTurn_free {s : State} {c : Latched} (hc : s.engine = .pending c) (he : s.env = []) :
    engineTurn s =
      if Config.engineMoves s.tick = true then
        complete c (Config.busWrite s.tick c.slave (busBytes c.data c.n))
          (Config.busRead s.tick c.slave c.n) s
      else s := by
  cases hm : Config.engineMoves s.tick <;> cases s <;> cases hc <;> cases he
  · simp [engineTurn, nextMove, hm]
  · simp [engineTurn, nextMove, hm]

/-- Settles O21: IDLE, the two entries of the script, and its end. -/
theorem engineCompletesAtAnyPointOrNever : Obligations.EngineCompletesAtAnyPointOrNever :=
  ⟨fun _ => engineTurn_idle, fun _ _ _ => engineTurn_hold, fun _ _ _ _ _ => engineTurn_move,
    fun _ _ => engineTurn_free⟩

/-- Settles O22: one case for each answer to the latched question. -/
theorem completionWritesTheRegistersAtOnce : Obligations.CompletionWritesTheRegistersAtOnce := by
  intro s ⟨kind, n, slave, data⟩ w r
  refine ⟨fun j _ => ?_, ?_, ?_, ?_, ?_⟩
  · rw [complete_ctrl, clearBitOf_bit _ (by omega), decide_not]
  · rintro rfl rfl; rfl
  · rintro code rfl rfl; rfl
  · rintro b0 b1 b2 b3 rfl rfl
    refine ⟨_, rfl, fun k hk => ?_⟩
    exact (overlay_lane_any _ _ _ hk).trans
      (congrArg (ite _ · _) (byteLane_fromLanes b0 b1 b2 b3 hk))
  · rintro code rfl rfl; rfl

/-- Settles O23: the codes of R120 have the classes of R119. -/
theorem wellBehavedBusGivesKnownClasses : Obligations.WellBehavedBusGivesKnownClasses := by
  intro ⟨kind, n, slave, data⟩ w r code hw hr hfail
  refine ⟨?_, ?_⟩
  · rintro rfl
    cases w with
    | ack => cases hfail
    | err code' =>
      cases hfail
      simp only [writeWellBehaved, Bool.or_eq_true, beq_iff_eq] at hw
      rcases hw with ((rfl | rfl) | rfl) | rfl <;> decide
  · rintro rfl
    cases r with
    | data b0 b1 b2 b3 => cases hfail
    | err code' =>
      cases hfail
      simp only [readWellBehaved, Bool.or_eq_true, beq_iff_eq] at hr
      rcases hr with (rfl | rfl) | rfl <;> decide

end Sys2Proof.Machine
end

section
/-! PROOFS. The accessors: one read, at most one write, and the laws of their words
(spec/41_bitfield_accessors.md R100 to R105). -/

namespace Sys2Proof.Machine

/-! ### The accesses of an accessor -/

/-- What SETB and CLRB have in common (R101): one read, then one write of the word changed by `f`.
-/
def readModifyWrite (x : Reg) (f : Word → Word) (s : State) : Run HostResult :=
  (readReg x s).bind fun w t => (writeReg x (f w) t).bind fun _ u => .ok .nothing u

theorem withBitIndex_ok {α : Type} {n : Int} (k : Nat → Run α) (h0 : 0 ≤ n) (h31 : n ≤ 31) :
    withBitIndex n k = k n.toNat :=
  if_neg (by omega)

theorem withBitIndex_refused {α : Type} {n : Int} (k : Nat → Run α) (h : n < 0 ∨ 31 < n) :
    withBitIndex n k = .refused .bitIndex :=
  if_pos h

theorem exec_setb {s : State} {n : Int} (x : Reg) (hs : s.ready = true) (h0 : 0 ≤ n)
    (h31 : n ≤ 31) :
    exec (.setb x n) s = finish (readModifyWrite x (fun w => setBitOf w n.toNat) s) := by
  show execSetb x n s = _
  rw [execSetb, command_ready _ hs, withBitIndex_ok _ h0 h31]
  rfl

theorem exec_clrb {s : State} {n : Int} (x : Reg) (hs : s.ready = true) (h0 : 0 ≤ n)
    (h31 : n ≤ 31) :
    exec (.clrb x n) s = finish (readModifyWrite x (fun w => clearBitOf w n.toNat) s) := by
  show execClrb x n s = _
  rw [execClrb, command_ready _ hs, withBitIndex_ok _ h0 h31]
  rfl

theorem exec_getb {s : State} {n : Int} (x : Reg) (hs : s.ready = true) (h0 : 0 ≤ n)
    (h31 : n ≤ 31) :
    exec (.getb x n) s = .next { engineTurn s with
      tick := s.tick + 1, result := .bit ((readValue x (engineTurn s)).getLsbD n.toNat) } := by
  show execGetb x n s = _
  rw [execGetb, command_ready _ hs, withBitIndex_ok _ h0 h31, ← getBitOf_eq, ← engineTurn_tick s]
  rfl

/-- Settles O24: the index check, then the accesses and no other check. -/
theorem accessorsAreOneReadAndAtMostOneWrite :
    Obligations.AccessorsAreOneReadAndAtMostOneWrite := by
  intro s x n hs
  have refused : ∀ k : State → Nat → Run HostResult, n < 0 ∨ 31 < n →
      command (fun s => withBitIndex n (k s)) s = .refused .bitIndex := by
    intro k h
    rw [command_ready _ hs, withBitIndex_refused _ h]
    rfl
  refine ⟨fun h => ⟨refused (fun s k => (setBit x k s).bind fun _ t => .ok .nothing t) h,
      refused (fun s k => (clearBit x k s).bind fun _ t => .ok .nothing t) h,
      refused (fun s k => (getBit x k s).bind fun b t => .ok (.bit b) t) h⟩, fun h0 h31 =>
    ⟨exec_setb x hs h0 h31, exec_clrb x hs h0 h31, ?_⟩⟩
  · rw [exec_getb x hs h0 h31, ← engineTurn_tick s]
    rfl

/-! ### While IDLE -/

/-- The write lands in the state the read left, if the engine is IDLE by then. -/
theorem readModifyWrite_engineTurn {s : State} (x : Reg) (f : Word → Word)
    (hi : (engineTurn s).engine = .idle) :
    readModifyWrite x f s =
      (writeIdle x (f (readValue x (engineTurn s))) (tickOn (engineTurn s))).bind fun _ u =>
        .ok .nothing (tickOn u) := by
  rw [readModifyWrite, readReg, bind_ok, writeReg_idle (s := tickOn (engineTurn s)) x _ hi]
  cases writeIdle x (f (readValue x (engineTurn s))) (tickOn (engineTurn s)) <;> rfl

theorem readModifyWrite_idle {s : State} (x : Reg) (f : Word → Word) (hi : s.engine = .idle) :
    readModifyWrite x f s =
      (writeIdle x (f (readValue x s)) (tickOn s)).bind fun _ u => .ok .nothing (tickOn u) := by
  have h := readModifyWrite_engineTurn (s := s) x f
  rw [engineTurn_idle hi] at h
  exact h hi

theorem readModifyWrite_idle_ok {s u : State} {x : Reg} {f : Word → Word} (hi : s.engine = .idle)
    (h : writeIdle x (f (readValue x s)) (tickOn s) = .ok () u) :
    finish (readModifyWrite x f s) = .next { u with tick := u.tick + 1, result := .nothing } := by
  rw [readModifyWrite_idle x f hi, h]
  rfl

theorem readModifyWrite_idle_refused {s : State} {x : Reg} {f : Word → Word} {e : Refusal}
    (hi : s.engine = .idle) (h : writeIdle x (f (readValue x s)) (tickOn s) = .refused e) :
    finish (readModifyWrite x f s) = .refused e := by
  rw [readModifyWrite_idle x f hi, h]
  rfl

/-- A value's write is a plain store: to ADDR, to DOUT, or to CTRL with START = 0. -/
def storesPlainly (x : Reg) (v : Word) : Prop :=
  x = .addr ∨ x = .dout ∨ (x = .ctrl ∧ ctrlStart v = false)

/-- The state after an accessor has stored `v`. -/
def storedBy (x : Reg) (v : Word) (s : State) : State :=
  match x with
  | .ctrl => { s with ctrl := v, tick := s.tick + 2, result := .nothing }
  | .addr => { s with addr := v, tick := s.tick + 2, result := .nothing }
  | .dout => { s with dout := v, tick := s.tick + 2, result := .nothing }
  | _ => s

theorem readModifyWrite_stores {s : State} {x : Reg} {f : Word → Word} (hi : s.engine = .idle)
    (h : storesPlainly x (f (readValue x s))) :
    finish (readModifyWrite x f s) = .next (storedBy x (f (readValue x s)) s) := by
  rcases h with rfl | rfl | ⟨rfl, hv⟩
  · exact readModifyWrite_idle_ok hi (x := .addr) rfl
  · exact readModifyWrite_idle_ok hi (x := .dout) rfl
  · exact readModifyWrite_idle_ok hi (x := .ctrl) (writeCtrl_store _ hv)

theorem readModifyWrite_starts {s : State} {f : Word → Word} (hi : s.engine = .idle)
    (hs : ctrlStart (f s.ctrl) = true) (he : ctrlEn (f s.ctrl) = true)
    (hd : ctrlDswap (f s.ctrl) = false) (hr : ctrlRo (f s.ctrl) = false) :
    finish (readModifyWrite .ctrl f s) = .next
      { accept (f s.ctrl) s with tick := s.tick + 2, result := .nothing } :=
  readModifyWrite_idle_ok hi (u := accept (f s.ctrl) (tickOn s))
    (writeCtrl_accept (tickOn s) hs he hd hr)

/-- On STATUS the write is STCLR's or it is refused (R88). -/
theorem readModifyWrite_status {s : State} (f : Word → Word) (hi : s.engine = .idle) :
    (f (statusWord s.status) = 0x00000003#32 →
      finish (readModifyWrite .status f s) = .next
        { s with status := clearFlags s.status, tick := s.tick + 2, result := .nothing }) ∧
    (f (statusWord s.status) ≠ 0x00000003#32 →
      finish (readModifyWrite .status f s) = .refused .statusValue) :=
  ⟨fun h => readModifyWrite_idle_ok hi (x := .status) (if_pos h),
    fun h => readModifyWrite_idle_refused hi (x := .status) (writeStatus_refused _ h)⟩

theorem readModifyWrite_din {s : State} (f : Word → Word) (hi : (engineTurn s).engine = .idle) :
    finish (readModifyWrite .din f s) = .refused .dinWrite := by
  rw [readModifyWrite_engineTurn .din f hi]
  rfl

theorem ctrlStart_setBitOf {w : Word} {n : Nat} (hn : n < 32) (h6 : n ≠ 6)
    (h : ctrlStart w = false) : ctrlStart (setBitOf w n) = false := by
  rw [ctrlStart] at *
  rw [setBitOf_bit w hn, h, decide_eq_false (Ne.symm h6)]
  rfl

theorem ctrlStart_clearBitOf {w : Word} {n : Nat} (hn : n < 32) (h : ctrlStart w = false) :
    ctrlStart (clearBitOf w n) = false := by
  rw [ctrlStart] at *
  rw [clearBitOf_bit w hn, h, Bool.and_false]

/-- Settles O25: on each register SETB is one write of the word with the bit set. -/
theorem setbSetsOneBit : Obligations.SetbSetsOneBit := by
  intro s n hs hi h0 h31
  have setb := fun x => exec_setb x hs h0 h31
  rw [setb .addr, setb .dout, setb .ctrl, setb .din, setb .status]
  refine ⟨readModifyWrite_stores hi (.inl rfl), readModifyWrite_stores hi (.inr (.inl rfl)),
    fun hst h6 => ?_, fun he hd hr => ?_, readModifyWrite_din _ (by rwa [engineTurn_idle hi]),
    readModifyWrite_status (fun w => setBitOf w n.toNat) hi⟩
  · exact readModifyWrite_stores hi (x := .ctrl)
      (.inr (.inr ⟨rfl, ctrlStart_setBitOf (by omega) (by omega) hst⟩))
  · have bit := fun j => setBitOf_bit s.ctrl (n := 6) (by decide) j
    rw [exec_setb .ctrl hs (by decide) (by decide)]
    exact readModifyWrite_starts (f := fun w => setBitOf w 6) hi (bit 6) ((bit 31).trans he)
      ((bit 24).trans hd) ((bit 5).trans hr)

/-- Settles O26: on each register CLRB is one write of the word with the bit cleared. -/
theorem clrbClearsOneBit : Obligations.ClrbClearsOneBit := by
  intro s n hs hi h0 h31
  have clrb := fun x => exec_clrb x hs h0 h31
  rw [clrb .addr, clrb .dout, clrb .ctrl, clrb .din, clrb .status]
  exact ⟨readModifyWrite_stores hi (.inl rfl), readModifyWrite_stores hi (.inr (.inl rfl)),
    fun hst => readModifyWrite_stores hi (x := .ctrl)
      (.inr (.inr ⟨rfl, ctrlStart_clearBitOf (by omega) hst⟩)),
    readModifyWrite_din _ (by rwa [engineTurn_idle hi]),
    readModifyWrite_status (fun w => clearBitOf w n.toNat) hi⟩

/-- Settles O16: the port's write and the accessors' write meet the same rule. -/
theorem dinWriteIsRefused : Obligations.DinWriteIsRefused := by
  intro s v n hs hi h0 h31
  rw [issueCommand_wr32, exec_setb .din hs h0 h31, exec_clrb .din hs h0 h31]
  exact ⟨writeCommand_refused hs hi (x := .din) rfl, readModifyWrite_din _ hi,
    readModifyWrite_din _ hi⟩

/-- The bit as the number `(w >> n) & 1`. -/
theorem ofBit_eq_shift_and (w : Word) (n : Nat) :
    (if w.getLsbD n then 1#32 else 0#32) = (w >>> n) &&& 1#32 := by
  apply BitVec.eq_of_getLsbD_eq
  intro i _
  rw [BitVec.getLsbD_and, BitVec.getLsbD_ushiftRight, BitVec.getLsbD_one]
  rcases Nat.eq_zero_or_pos i with rfl | hp
  · cases w.getLsbD n <;> simp
  · cases w.getLsbD n <;> simp [BitVec.getLsbD_one, Nat.ne_of_gt hp]

/-- Settles O27: the bit of the word read, STATUS bit by bit. -/
theorem getbReturnsOneBit : Obligations.GetbReturnsOneBit := by
  intro s x n hs h0 h31
  have getb := fun n => exec_getb (n := n) .status hs
  refine ⟨⟨_, exec_getb x hs h0 h31, ofBit_eq_shift_and _ _⟩, ?_, ?_, fun hn0 hn1 hn => ?_⟩
  · rw [getb 1 (by decide) (by decide), ← statusWord_done]
    rfl
  · rw [getb 0 (by decide) (by decide), ← statusWord_err]
    rfl
  · have hbit : (statusWord (engineTurn s).status).getLsbD n.toNat = false := by
      rw [statusWord_bit, decide_eq_false (by omega : n.toNat ≠ 1),
        decide_eq_false (by omega : n.toNat ≠ 0)]
      rcases hn with h8 | h15
      · rw [decide_eq_false (by omega : ¬ 8 ≤ n.toNat)]; rfl
      · rw [BitVec.getLsbD_of_ge _ _ (by omega : 8 ≤ n.toNat - 8), Bool.and_false]; rfl
    rw [getb n h0 h31, readValue, hbit]

/-! ### The laws of R105 -/

theorem setBitOf_idem (w : Word) {n : Nat} (hn : n < 32) :
    setBitOf (setBitOf w n) n = setBitOf w n := by
  apply BitVec.eq_of_getLsbD_eq
  intro j _
  rw [setBitOf_bit _ hn, setBitOf_bit _ hn, ← Bool.or_assoc, Bool.or_self]

theorem clearBitOf_idem (w : Word) {n : Nat} (hn : n < 32) :
    clearBitOf (clearBitOf w n) n = clearBitOf w n := by
  apply BitVec.eq_of_getLsbD_eq
  intro j _
  rw [clearBitOf_bit _ hn, clearBitOf_bit _ hn, ← Bool.and_assoc, Bool.and_self]

theorem setBitOf_comm (w : Word) {m n : Nat} (hm : m < 32) (hn : n < 32) :
    setBitOf (setBitOf w m) n = setBitOf (setBitOf w n) m := by
  apply BitVec.eq_of_getLsbD_eq
  intro j _
  rw [setBitOf_bit _ hn, setBitOf_bit _ hm, setBitOf_bit _ hm, setBitOf_bit _ hn,
    Bool.or_left_comm]

theorem clearBitOf_comm (w : Word) {m n : Nat} (hm : m < 32) (hn : n < 32) :
    clearBitOf (clearBitOf w m) n = clearBitOf (clearBitOf w n) m := by
  apply BitVec.eq_of_getLsbD_eq
  intro j _
  rw [clearBitOf_bit _ hn, clearBitOf_bit _ hm, clearBitOf_bit _ hm, clearBitOf_bit _ hn,
    Bool.and_left_comm]

theorem clearBitOf_setBitOf_comm (w : Word) {m n : Nat} (hm : m < 32) (hn : n < 32) (h : m ≠ n) :
    clearBitOf (setBitOf w m) n = setBitOf (clearBitOf w n) m := by
  apply BitVec.eq_of_getLsbD_eq
  intro j _
  rw [clearBitOf_bit _ hn, setBitOf_bit _ hm, setBitOf_bit _ hm, clearBitOf_bit _ hn]
  by_cases hj : j = m
  · simp [hj, h]
  · simp [hj]

/-- A plain store leaves a state in which commands may be issued, the engine IDLE and the value in
the register. -/
theorem storedBy_spec {s : State} {x : Reg} {v : Word} (hs : s.ready = true)
    (hi : s.engine = .idle) (h : storesPlainly x v) :
    (storedBy x v s).ready = true ∧ (storedBy x v s).engine = .idle ∧
      readValue x (storedBy x v s) = v := by
  rcases h with rfl | rfl | ⟨rfl, -⟩ <;> exact ⟨hs, hi, rfl⟩

/-- A later plain store to the same register overwrites the earlier one. -/
theorem storedBy_storedBy {s : State} {x : Reg} {v v' : Word} (h : storesPlainly x v) :
    storedBy x v' (storedBy x v s) = { storedBy x v' s with tick := s.tick + 4 } := by
  rcases h with rfl | rfl | ⟨rfl, -⟩ <;> rfl

/-- Storing again the value a plain store left counts its two accesses only. -/
theorem storedBy_same {s : State} {x : Reg} {v : Word} (h : storesPlainly x v) :
    storedBy x v (storedBy x v s) = { storedBy x v s with tick := (storedBy x v s).tick + 2 } := by
  rcases h with rfl | rfl | ⟨rfl, -⟩ <;> rfl

/-- `i` is a read-modify-write of `x` by `f` wherever commands are accepted. -/
def modifies (i : Instr) (x : Reg) (f : Word → Word) : Prop :=
  ∀ s : State, s.ready = true → exec i s = finish (readModifyWrite x f s)

theorem exec_of_modifies {i : Instr} {x : Reg} {f : Word → Word} {s : State} (h : modifies i x f)
    (hs : s.ready = true) (hi : s.engine = .idle) (hf : storesPlainly x (f (readValue x s))) :
    exec i s = .next (storedBy x (f (readValue x s)) s) :=
  (h s hs).trans (readModifyWrite_stores hi hf)

/-- What an idempotent modification that gives bit `n` the value `b` shows a GETB, and its
repetition. -/
theorem modify_get_repeat {i : Instr} {x : Reg} {f : Word → Word} {s : State} {n : Int} {b : Bool}
    (h : modifies i x f) (hs : s.ready = true) (hi : s.engine = .idle)
    (hf : storesPlainly x (f (readValue x s))) (hidem : ∀ w, f (f w) = f w) (h0 : 0 ≤ n)
    (h31 : n ≤ 31) (hb : ∀ w, (f w).getLsbD n.toNat = b) :
    ∃ t, exec i s = .next t ∧
      exec (.getb x n) t = .next { t with tick := t.tick + 1, result := .bit b } ∧
      exec i t = .next { t with tick := t.tick + 2 } := by
  obtain ⟨ts, ti, tv⟩ := storedBy_spec (v := f (readValue x s)) hs hi hf
  refine ⟨_, exec_of_modifies h hs hi hf, ?_, ?_⟩
  · rw [exec_getb x ts h0 h31, engineTurn_idle ti, tv, hb]
  · rw [exec_of_modifies h ts ti (by rwa [tv, hidem]), tv, hidem, storedBy_same hf]

/-- Two modifications that commute on words give the same next state in either order. -/
theorem modify_commute {i j : Instr} {x : Reg} {f g : Word → Word} {s : State}
    (hif : modifies i x f) (hjg : modifies j x g) (hs : s.ready = true) (hi : s.engine = .idle)
    (hf : storesPlainly x (f (readValue x s))) (hg : storesPlainly x (g (readValue x s)))
    (hgf : storesPlainly x (g (f (readValue x s)))) (hcomm : ∀ w, g (f w) = f (g w)) :
    ∃ t t' u, exec i s = .next t ∧ exec j t = .next u ∧ exec j s = .next t' ∧
      exec i t' = .next u := by
  obtain ⟨ts, ti, tv⟩ := storedBy_spec (v := f (readValue x s)) hs hi hf
  obtain ⟨ts', ti', tv'⟩ := storedBy_spec (v := g (readValue x s)) hs hi hg
  refine ⟨_, _, _, exec_of_modifies hif hs hi hf, exec_of_modifies hjg ts ti (by rwa [tv]),
    exec_of_modifies hjg hs hi hg, ?_⟩
  rw [exec_of_modifies hif ts' ti' (by rwa [tv', ← hcomm]), tv, tv', hcomm, storedBy_storedBy hf,
    storedBy_storedBy hg]

theorem storesPlainly_setBitOf {x : Reg} {w : Word} {n : Nat} (hn : n < 32)
    (h6 : x = .ctrl → n ≠ 6) (h : storesPlainly x w) : storesPlainly x (setBitOf w n) := by
  rcases h with rfl | rfl | ⟨rfl, hw⟩
  · exact .inl rfl
  · exact .inr (.inl rfl)
  · exact .inr (.inr ⟨rfl, ctrlStart_setBitOf hn (h6 rfl) hw⟩)

theorem storesPlainly_clearBitOf {x : Reg} {w : Word} {n : Nat} (hn : n < 32)
    (h : storesPlainly x w) : storesPlainly x (clearBitOf w n) := by
  rcases h with rfl | rfl | ⟨rfl, hw⟩
  · exact .inl rfl
  · exact .inr (.inl rfl)
  · exact .inr (.inr ⟨rfl, ctrlStart_clearBitOf hn hw⟩)

/-- SETB of a bit above 1 never makes STATUS's word the literal 3. -/
theorem setBitOf_ne_clearLiteral (w : Word) {n : Nat} (h1 : 1 < n) (hn : n < 32) :
    setBitOf w n ≠ 0x00000003#32 := by
  intro h
  have hbit : (0x00000003#32).getLsbD n = true := by
    rw [← h, setBitOf_bit w hn, decide_eq_true rfl, Bool.true_or]
  have hzero : ∀ n : Fin 32, 1 < n.val → (0x00000003#32).getLsbD n.val = false := by decide
  exact nomatch hbit.symm.trans (hzero ⟨n, hn⟩ h1)

/-- A GETB of START before which the transaction completes returns 0. -/
theorem getb_start_completed {s : State} {c : Latched} {w : WriteAnswer} {r : ReadAnswer}
    {rest : List EnvMove} (hs : s.ready = true) (hc : s.engine = .pending c)
    (he : s.env = .move w r :: rest) :
    ∃ t, exec (.getb .ctrl 6) s = .next t ∧ t.result = .bit false := by
  refine ⟨_, exec_getb .ctrl hs (by decide) (by decide), ?_⟩
  rw [engineTurn_move hc he]
  exact congrArg HostResult.bit (ctrlStart_clear _)

/-- SETB CTRL, 6 starts the transaction whose completion clears the bit again. -/
theorem setb_start_then_getb {s : State} {w : WriteAnswer} {r : ReadAnswer} {rest : List EnvMove}
    (hs : s.ready = true) (he : s.enabledIdle = true) (hro : ctrlRo s.ctrl = false)
    (henv : s.env = .move w r :: rest) :
    ∃ t u, exec (.setb .ctrl 6) s = .next t ∧ exec (.getb .ctrl 6) t = .next u ∧
      u.result = .bit false := by
  obtain ⟨hi, -, hen, hd⟩ := enabledIdle_iff.1 he
  obtain ⟨-, -, -, hset, -⟩ := setbSetsOneBit s 6 hs hi (by decide) (by decide)
  obtain ⟨u, hget, hbit⟩ := getb_start_completed
    (s := { accept (s.ctrl ||| 0x00000040#32) s with tick := s.tick + 2, result := .nothing })
    hs rfl henv
  exact ⟨_, u, hset hen hd hro, hget, hbit⟩

/-- Settles O28: the words' bits, the laws on storage from those of the words, and the two
exceptions. -/
theorem accessorLawsOnStorage : Obligations.AccessorLawsOnStorage := by
  refine ⟨fun w n hn => ⟨rfl, rfl, getBitOf_eq w n, fun j _ =>
    ⟨setBitOf_bit w hn j, clearBitOf_bit w hn j⟩⟩, rfl, ?_, ?_, ?_⟩
  · intro s x m n hs hi hx m0 m31 n0 n31
    have hm : m.toNat < 32 := by omega
    have hn : n.toNat < 32 := by omega
    have hplain : storesPlainly x (readValue x s) := by
      rcases hx with rfl | rfl | ⟨rfl, hst, -⟩
      · exact .inl rfl
      · exact .inr (.inl rfl)
      · exact .inr (.inr ⟨rfl, hst⟩)
    have h6 : x = .ctrl → m.toNat ≠ 6 ∧ n.toNat ≠ 6 := by
      rintro rfl
      rcases hx with h | h | ⟨-, -, hm6, hn6⟩
      · cases h
      · cases h
      · omega
    have setm : modifies (.setb x m) x fun w => setBitOf w m.toNat :=
      fun _ h => exec_setb x h m0 m31
    have setn : modifies (.setb x n) x fun w => setBitOf w n.toNat :=
      fun _ h => exec_setb x h n0 n31
    have clrm : modifies (.clrb x m) x fun w => clearBitOf w m.toNat :=
      fun _ h => exec_clrb x h m0 m31
    have clrn : modifies (.clrb x n) x fun w => clearBitOf w n.toNat :=
      fun _ h => exec_clrb x h n0 n31
    have psetm := storesPlainly_setBitOf hm (fun h => (h6 h).1) hplain
    have psetn := storesPlainly_setBitOf hn (fun h => (h6 h).2) hplain
    have pclrm := storesPlainly_clearBitOf hm hplain
    have pclrn := storesPlainly_clearBitOf hn hplain
    refine ⟨?_, ?_, fun hne => ⟨?_, ?_, ?_⟩⟩
    · exact modify_get_repeat setn hs hi psetn (fun w => setBitOf_idem w hn) n0 n31
        fun w => by rw [setBitOf_bit w hn, decide_eq_true rfl, Bool.true_or]
    · exact modify_get_repeat clrn hs hi pclrn (fun w => clearBitOf_idem w hn) n0 n31
        fun w => by rw [clearBitOf_bit w hn, decide_eq_true rfl]; rfl
    · exact modify_commute setm clrn hs hi psetm pclrn (storesPlainly_clearBitOf hn psetm)
        fun w => clearBitOf_setBitOf_comm w hm hn (by omega)
    · exact modify_commute setm setn hs hi psetm psetn
        (storesPlainly_setBitOf hn (fun h => (h6 h).2) psetm) fun w => setBitOf_comm w hm hn
    · exact modify_commute clrm clrn hs hi pclrm pclrn (storesPlainly_clearBitOf hn pclrm)
        fun w => clearBitOf_comm w hm hn
  · intro s n hs hi h1 h31
    rw [exec_setb .status hs (by omega) h31]
    exact (readModifyWrite_status _ hi).2 (setBitOf_ne_clearLiteral _ (by omega) (by omega))
  · exact fun s w r rest hs he hro henv => setb_start_then_getb hs he hro henv

end Sys2Proof.Machine
end

section
/-! PROOFS. Read-modify-write of CTRL while PENDING, and TWI.ENABLE
(spec/70_reset_and_hazards.md R197, spec/43_sequencer.md R141, R147). -/

namespace Sys2Proof.Machine

/-! ### Across a completion (R197) -/

/-- The state in which the write of an accessor lands when the transaction completes after its
read. -/
def completedBetween (c : Latched) (w : WriteAnswer) (r : ReadAnswer) (rest : List EnvMove)
    (s : State) : State :=
  complete c w r { s with env := rest, tick := s.tick + 1 }

theorem readModifyWrite_ctrl_completed {s : State} {c : Latched} {w : WriteAnswer}
    {r : ReadAnswer} {rest : List EnvMove} (f : Word → Word) (hc : s.engine = .pending c)
    (he : s.env = .hold :: .move w r :: rest) :
    readModifyWrite .ctrl f s =
      (writeCtrl (f s.ctrl) (completedBetween c w r rest s)).bind fun _ u =>
        .ok .nothing (tickOn u) := by
  have hmove : engineTurn (tickOn { s with env := .move w r :: rest }) =
      completedBetween c w r rest s := engineTurn_move hc rfl
  rw [readModifyWrite, readReg, bind_ok, engineTurn_hold hc he, writeReg, hmove]
  simp only [readValue, completedBetween, complete_engine, writeIdle]
  cases writeCtrl (f s.ctrl) (complete c w r { s with env := rest, tick := s.tick + 1 }) <;> rfl

/-- With START, EN = 1 and DSWAP, RO = 0 in the word written it is a new start, with the registers
as they are. -/
theorem retrigger {s : State} {c : Latched} {w : WriteAnswer} {r : ReadAnswer}
    {rest : List EnvMove} {f : Word → Word} (hc : s.engine = .pending c)
    (he : s.env = .hold :: .move w r :: rest) (hst : ctrlStart (f s.ctrl) = true)
    (hen : ctrlEn (f s.ctrl) = true) (hd : ctrlDswap (f s.ctrl) = false)
    (hr : ctrlRo (f s.ctrl) = false) :
    ∃ t, finish (readModifyWrite .ctrl f s) = .next t ∧ t.ctrl = f s.ctrl ∧
      t.ctrl.getLsbD 6 = true ∧
      t.engine = .pending (latch s.cfg.readLen t.ctrl s.addr s.dout) ∧
      t.bus = s.bus ++ [busQuestion c] := by
  rw [readModifyWrite_ctrl_completed f hc he, writeCtrl_accept _ hst hen hd hr]
  exact ⟨_, rfl, rfl, hst, rfl, rfl⟩

/-- A write the port refuses after the completion. -/
theorem readModifyWrite_ctrl_refused {s : State} {c : Latched} {w : WriteAnswer} {r : ReadAnswer}
    {rest : List EnvMove} {f : Word → Word} {e : Refusal} (hc : s.engine = .pending c)
    (he : s.env = .hold :: .move w r :: rest)
    (h : writeCtrl (f s.ctrl) (completedBetween c w r rest s) = .refused e) :
    finish (readModifyWrite .ctrl f s) = .refused e := by
  rw [readModifyWrite_ctrl_completed f hc he, h]
  rfl

/-- A write after a read faults when the engine holds before both (R90). -/
theorem writeReg_after_read_pending {s : State} {c : Latched} {rest : List EnvMove} (x : Reg)
    (v : Word) (hc : s.engine = .pending c) (he : s.env = .hold :: .hold :: rest) :
    writeReg x v (tickOn (engineTurn s)) = .fault .writeWhilePending := by
  have hhold : engineTurn (tickOn { s with env := .hold :: rest }) =
      tickOn { s with env := rest } := engineTurn_hold hc rfl
  rw [engineTurn_hold hc he]
  exact writeReg_pending x v (by rw [hhold]; exact hc)

theorem readModifyWrite_pending {s : State} {c : Latched} {rest : List EnvMove} (x : Reg)
    (f : Word → Word) (hc : s.engine = .pending c) (he : s.env = .hold :: .hold :: rest) :
    readModifyWrite x f s = .fault .writeWhilePending := by
  rw [readModifyWrite, readReg, bind_ok, writeReg_after_read_pending x _ hc he]
  rfl

theorem setBit_pending {s : State} {c : Latched} {rest : List EnvMove} (x : Reg) (n : Nat)
    (hc : s.engine = .pending c) (he : s.env = .hold :: .hold :: rest) :
    setBit x n s = .fault .writeWhilePending :=
  writeReg_after_read_pending x _ hc he

/-- What the invariant says of CTRL while PENDING. -/
theorem ctrl_of_pending {s : State} {c : Latched} (h : s.engineMatchesCtrl)
    (hc : s.engine = .pending c) :
    ctrlStart s.ctrl = true ∧ ctrlEn s.ctrl = true ∧ ctrlDswap s.ctrl = false ∧
      ctrlRo s.ctrl = false := by
  unfold State.engineMatchesCtrl at h
  rw [hc] at h
  obtain ⟨hst, hen, hd, hr, -⟩ := h
  exact ⟨hst, hen, hd, hr⟩

theorem setBitOf_other {w : Word} {n j : Nat} (hn : n < 32) (h : j ≠ n) :
    (setBitOf w n).getLsbD j = w.getLsbD j := by
  rw [setBitOf_bit w hn, decide_eq_false h, Bool.false_or]

theorem setBitOf_self {w : Word} {n : Nat} (hn : n < 32) : (setBitOf w n).getLsbD n = true := by
  rw [setBitOf_bit w hn, decide_eq_true rfl, Bool.true_or]

theorem setBitOf_of_set {w : Word} {n j : Nat} (hn : n < 32) (h : w.getLsbD j = true) :
    (setBitOf w n).getLsbD j = true := by
  rw [setBitOf_bit w hn, h, Bool.or_true]

theorem clearBitOf_other {w : Word} {n j : Nat} (hn : n < 32) (h : j ≠ n) :
    (clearBitOf w n).getLsbD j = w.getLsbD j := by
  rw [clearBitOf_bit w hn, decide_eq_false h]
  rfl

theorem clearBitOf_self {w : Word} {n : Nat} (hn : n < 32) :
    (clearBitOf w n).getLsbD n = false := by
  rw [clearBitOf_bit w hn, decide_eq_true rfl]
  rfl

theorem clearBitOf_of_clear {w : Word} {n j : Nat} (hn : n < 32) (h : w.getLsbD j = false) :
    (clearBitOf w n).getLsbD j = false := by
  rw [clearBitOf_bit w hn, h, Bool.and_false]

/-- SETB across the completion: a new start unless it set RO or DSWAP. -/
theorem setb_ctrl_completed {s : State} {c : Latched} {w : WriteAnswer} {r : ReadAnswer}
    {rest : List EnvMove} {n : Nat} (hn : n < 32) (hinv : s.engineMatchesCtrl)
    (hc : s.engine = .pending c) (he : s.env = .hold :: .move w r :: rest) :
    (n ≠ 5 → n ≠ 24 → ∃ t, finish (readModifyWrite .ctrl (fun w => setBitOf w n) s) = .next t ∧
      t.ctrl = setBitOf s.ctrl n ∧ t.ctrl.getLsbD 6 = true ∧
      t.engine = .pending (latch s.cfg.readLen t.ctrl s.addr s.dout) ∧
      t.bus = s.bus ++ [busQuestion c]) ∧
    (n = 5 → finish (readModifyWrite .ctrl (fun w => setBitOf w n) s) = .refused .roSet) ∧
    (n = 24 → finish (readModifyWrite .ctrl (fun w => setBitOf w n) s) = .refused .dswapSet) := by
  obtain ⟨hst, hen, hd, hr⟩ := ctrl_of_pending hinv hc
  have vst : ctrlStart (setBitOf s.ctrl n) = true := setBitOf_of_set hn hst
  have ven : ctrlEn (setBitOf s.ctrl n) = true := setBitOf_of_set hn hen
  refine ⟨fun h5 h24 => ?_, ?_, ?_⟩
  · exact retrigger hc he vst ven ((setBitOf_other hn h24.symm).trans hd)
      ((setBitOf_other hn h5.symm).trans hr)
  · rintro rfl
    exact readModifyWrite_ctrl_refused hc he
      (writeCtrl_ro _ vst ven ((setBitOf_other hn (by decide)).trans hd) (setBitOf_self hn))
  · rintro rfl
    exact readModifyWrite_ctrl_refused hc he (writeCtrl_dswap _ vst ven (setBitOf_self hn))

/-- CLRB across the completion: a new start unless it cleared EN or START itself. -/
theorem clrb_ctrl_completed {s : State} {c : Latched} {w : WriteAnswer} {r : ReadAnswer}
    {rest : List EnvMove} {n : Nat} (hn : n < 32) (hinv : s.engineMatchesCtrl)
    (hc : s.engine = .pending c) (he : s.env = .hold :: .move w r :: rest) :
    (n ≠ 6 → n ≠ 31 → ∃ t, finish (readModifyWrite .ctrl (fun w => clearBitOf w n) s) = .next t ∧
      t.ctrl = clearBitOf s.ctrl n ∧ t.ctrl.getLsbD 6 = true ∧
      t.engine = .pending (latch s.cfg.readLen t.ctrl s.addr s.dout) ∧
      t.bus = s.bus ++ [busQuestion c]) ∧
    (n = 31 → finish (readModifyWrite .ctrl (fun w => clearBitOf w n) s) =
      .refused .startWhileDisabled) ∧
    (n = 6 → ∃ t, finish (readModifyWrite .ctrl (fun w => clearBitOf w n) s) = .next t ∧
      t.ctrl = clearBitOf s.ctrl 6 ∧ t.engine = .idle ∧ t.bus = s.bus ++ [busQuestion c]) := by
  obtain ⟨hst, hen, hd, hr⟩ := ctrl_of_pending hinv hc
  refine ⟨fun h6 h31 => ?_, ?_, ?_⟩
  · exact retrigger hc he ((clearBitOf_other hn h6.symm).trans hst)
      ((clearBitOf_other hn h31.symm).trans hen) (clearBitOf_of_clear hn hd)
      (clearBitOf_of_clear hn hr)
  · rintro rfl
    exact readModifyWrite_ctrl_refused hc he
      (writeCtrl_disabled _ ((clearBitOf_other hn (by decide)).trans hst) (clearBitOf_self hn))
  · rintro rfl
    rw [readModifyWrite_ctrl_completed _ hc he, writeCtrl_store _ (ctrlStart_clear _)]
    exact ⟨_, rfl, rfl, rfl, rfl⟩

/-- Settles O29: SETB and CLRB across a completion, and with the engine holding over both accesses.
-/
theorem readModifyWriteAcrossCompletionRetriggers :
    Obligations.ReadModifyWriteAcrossCompletionRetriggers := by
  intro s c w r rest n hs hinv hc h0 h31
  have hn : n.toNat < 32 := by omega
  rw [exec_setb .ctrl hs h0 h31, exec_clrb .ctrl hs h0 h31]
  refine ⟨fun he => ?_, fun he => ?_⟩
  · obtain ⟨hset, hsetRo, hsetDswap⟩ := setb_ctrl_completed hn hinv.1 hc he
    obtain ⟨hclr, hclrEn, hclrStart⟩ := clrb_ctrl_completed hn hinv.1 hc he
    exact ⟨fun h5 h24 => hset (by omega) (by omega), fun h => hsetRo (by omega),
      fun h => hsetDswap (by omega), fun h6 h31 => hclr (by omega) (by omega),
      fun h => hclrEn (by omega), fun h => hclrStart (by omega)⟩
  · rw [readModifyWrite_pending _ _ hc he, readModifyWrite_pending _ _ hc he]
    exact ⟨rfl, rfl⟩

/-! ### TWI.ENABLE and the refusals of the sequencer (R141, R147) -/

theorem ready_of_seq {s : State} {q : Seq} (h : s.seq = q) (hh : seqHalted q = false)
    (hb : seqBusy q = false) : s.ready = true :=
  ready_iff.2 ⟨h ▸ hh, h ▸ hb⟩

/-- Settles O30: the five accesses while IDLE, and the fault of the second while PENDING. -/
theorem enableSetsEnClearsDswapAndFlags : Obligations.EnableSetsEnClearsDswapAndFlags := by
  intro s hseq
  have hexec : exec .twiEnable s = finish ((enableAccesses (beginOperation s)).bind fun _ t =>
      .ok .nothing { t with seq := .enabled }) := by
    show execTwiEnable s = _
    rw [execTwiEnable, command_ready _ (ready_of_seq hseq rfl rfl), if_pos hseq]
  rw [hexec]
  refine ⟨fun hclean => ?_, fun c rest hc he => ?_⟩
  · obtain ⟨hi, hst⟩ : s.engine = .idle ∧ ctrlStart s.ctrl = false := by
      simpa [State.cleanStart] using hclean
    rw [enableAccesses_eq (s := beginOperation s) hi hst]
    rfl
  · rw [enableAccesses, setBit_pending (s := beginOperation s) .ctrl 31 hc he]
    rfl

theorem requireTransfer_notEnabled {α : Type} {s : State} (len : Int) (k : Run α)
    (h : s.seq = .uninitialized) : requireTransfer len s k = .refused .notEnabled :=
  if_pos h

theorem requireTransfer_length {α : Type} {s : State} {len : Int} (k : Run α)
    (h : s.seq ≠ .uninitialized) (hlen : len < 1 ∨ 4 < len) :
    requireTransfer len s k = .refused .length := by
  rw [requireTransfer, if_neg h, if_neg]
  simp only [Config.lenMin, Config.lenMax]
  omega

/-- A transfer is refused as its requirement is. -/
theorem exec_transfer_refused {s : State} {len : Int} {e : Refusal} (hs : s.ready = true)
    (h : ∀ k : Run HostResult, requireTransfer len s k = .refused e) (slave data : Word) :
    exec (.twiWrite slave len data) s = .refused e ∧ exec (.twiRead slave len) s = .refused e := by
  show execTwiWrite slave len data s = _ ∧ execTwiRead slave len s = _
  rw [execTwiWrite, execTwiRead, command_ready _ hs, command_ready _ hs, h, h]
  exact ⟨rfl, rfl⟩

/-- Settles O31: the check of R147 by the values of `seq`. -/
theorem commandsInTheWrongStateAreRefused : Obligations.CommandsInTheWrongStateAreRefused := by
  intro s
  refine ⟨fun h slave len data => ?_, fun h => ?_, fun h i => ?_, fun h i t hexec => ?_,
    fun h slave len data hlen => ?_⟩
  · exact exec_transfer_refused (ready_of_seq h rfl rfl)
      (fun k => requireTransfer_notEnabled len k h) slave data
  · have hs : s.ready = true ∧ s.seq ≠ .uninitialized := by
      rcases h with h | h <;> exact ⟨ready_of_seq h rfl rfl, h ▸ nofun⟩
    show execTwiEnable s = _
    rw [execTwiEnable, command_ready _ hs.1, if_neg hs.2]
    rfl
  · obtain ⟨k, hk⟩ := exec_is_command i
    rw [hk s, command_halted k (by rcases h with h | h <;> rw [h] <;> rfl)]
  · obtain ⟨k, hk⟩ := exec_is_command i
    obtain ⟨hready, -⟩ := command_eq_next ((hk s).symm.trans hexec)
    rcases h with h | h <;> rw [State.ready, h] at hready <;> cases hready
  · have hs : s.ready = true ∧ s.seq ≠ .uninitialized := by
      rcases h with h | h <;> exact ⟨ready_of_seq h rfl rfl, h ▸ nofun⟩
    exact exec_transfer_refused hs.1 (fun k => requireTransfer_length k hs.2 hlen) slave data

end Sys2Proof.Machine
end

section
/-! PROOFS. The fatal halt, reset and the step (spec/60_exceptions.md R174, spec/10_state.md R31,
spec/70_reset_and_hazards.md R190, R203). -/

namespace Sys2Proof.Machine

/-- Settles O46, by unfolding the fatal halt. -/
theorem fatalHaltWritesOnlyItsOutputs : Obligations.FatalHaltWritesOnlyItsOutputs :=
  ⟨fun _ => rfl, fun _ _ => rfl, rfl, rfl, rfl, fun e => by cases e <;> decide⟩

/-- STATUS with both flags clear reads as the code in its place. -/
theorem statusWord_clear (code : Byte) :
    statusWord { code := code, done := false, err := false } = code.setWidth 32 <<< 8 := by
  show (code.setWidth 32 <<< 8 ||| 0#32) ||| 0#32 = _
  rw [BitVec.or_zero, BitVec.or_zero]

/-- Settles O48: the fields of `State.resetWith`, and its STATUS as a word. -/
theorem resetLeavesTheBlockIdleAndDisabled : Obligations.ResetLeavesTheBlockIdleAndDisabled :=
  fun p => ⟨rfl, rfl, rfl, rfl, rfl, rfl, rfl, statusWord_clear p.resetCode, rfl, rfl, rfl, rfl,
    rfl, rfl⟩

theorem step_issue {s : State} {c : Command} {i : Instr} {rest : List HostEvent}
    (hp : s.program = .issue c :: rest) (hc : decode c = .ok i) :
    step s = endOfCommand (exec i { s with program := rest }) := by
  rw [step, nextEvent, hp, ← issueCommand_ok _ hc]
  rfl

/-- A placed instruction is issued with the rest of the list as it was. -/
theorem step_withFetchWord {s : State} {i : Instr} {nbits w : Nat}
    (h : decodeTableWord nbits w = some i) :
    step (s.withFetchWord nbits w) = endOfCommand (exec i s) := by
  have hc : decode (commandOfTableWord nbits w) = .ok i := by
    unfold decodeTableWord at h
    split at h
    · rename_i j hj; cases h; exact hj
    · cases h
  exact step_issue (s := s.withFetchWord nbits w) rfl hc

/-- Settles O50: the event is taken off the list, and the end of a command is by its `halt`. -/
theorem stepRunsTheDecodedInstruction : Obligations.StepRunsTheDecodedInstruction := by
  refine ⟨fun s c i rest hp hc => step_issue hp hc, fun s i rest hp => ?_,
    fun s i nbits w h => step_withFetchWord h, fun t h => ?_, fun t h => ?_, fun f => rfl,
    fun r => rfl⟩
  · rw [step, nextEvent, hp]
    rfl
  · rw [endOfCommand, if_neg (by rw [h]; decide)]
  · rw [endOfCommand, if_pos h]

/-- Settles O51: without a command a step is the engine's opportunity and the counter. -/
theorem withoutAccessOnlyTheEngineMoves : Obligations.WithoutAccessOnlyTheEngineMoves := by
  refine ⟨fun s hp => ?_, fun s rest hp => ?_, rfl⟩
  · rw [step, nextEvent, hp, idleStep, tickOn, engineTurn_tick]
  · rw [step, nextEvent, hp]
    show Host.Outcome.next (tickOn (engineTurn { s with program := rest })) = _
    rw [tickOn, engineTurn_tick]

end Sys2Proof.Machine
end

section
/-! PROOFS. TWI.WRITE by the outcome of its transaction (spec/43_sequencer.md R142, R144, R145;
spec/42_bus_engine.md R118). -/

namespace Sys2Proof.Machine

/-- Acceptance with `START_CLEARS_FLAGS` (R114). -/
theorem acceptedFlags_clear {p : Params} (f : Status) (h : p.startClearsFlags = true) :
    acceptedFlags p f = clearFlags f :=
  if_pos h

theorem acceptedFlags_keep {p : Params} (f : Status) (h : p.startClearsFlags = false) :
    acceptedFlags p f = f := by
  rw [acceptedFlags, if_neg (by rw [h]; decide)]

/-- The command TWI.WRITE latches. -/
def writeLatched (slave : Word) (len : Int) (data : Word) : Latched :=
  { kind := .write, n := len.toNat, slave := slave, data := data }

/-- TWI.WRITE's state when its transaction has completed with these flags and `n` polls are made. -/
def writeCompleted (slave : Word) (len : Int) (data : Word) (n : Nat) (rest : List EnvMove)
    (flags : Status) (s : State) : State :=
  { s with
    ctrl := writeWord s.ctrl len, addr := slave, dout := data, dinBytes := 0, status := flags,
    seq := .writePending, stepIdx := 10 + n, polls := n, env := rest, tick := s.tick + (10 + n),
    bus := s.bus ++ [.write slave (busBytes data len.toNat)] }

theorem writeStarted_clear {s : State} (slave : Word) (len : Int) (data : Word)
    (hclear : s.cfg.startClearsFlags = true) :
    (writeStarted slave len data s).status = clearFlags s.status :=
  acceptedFlags_clear s.status hclear

/-- The completion of TWI.WRITE's transaction after `k` polls, the counts then advanced to `n`. -/
theorem complete_writeStarted {s : State} (slave data : Word) {len : Int} (k n : Nat)
    (w : WriteAnswer) (r : ReadAnswer) (rest : List EnvMove) (he : s.enabledIdle = true)
    (hclear : s.cfg.startClearsFlags = true) (h1 : 1 ≤ len) (h4 : len ≤ 4) :
    { complete (writeLatched slave len data) w r
        { writeStarted slave len data s with env := rest, tick := s.tick + 10 + k } with
      tick := s.tick + (10 + n), stepIdx := 10 + n, polls := n } =
    writeCompleted slave len data n rest
      (completedFlags s.cfg (clearFlags s.status)
        (failureCode (writeLatched slave len data) w r)) s := by
  obtain ⟨hi, hst, -⟩ := enabledIdle_iff.1 he
  have hctrl := clearBitOf_setBitOf (ctrlStart_writeWord h1 h4 hst)
  simp only [complete, writeStarted, writeCompleted, acceptedFlags_clear _ hclear, hctrl, hi]
  rfl

/-- A transaction that completes with the done flag set ends the wait there. -/
theorem poll_writeStarted_done {s : State} (slave data : Word) {len : Int} {k : Nat}
    {w : WriteAnswer} {r : ReadAnswer} {rest : List EnvMove} (he : s.enabledIdle = true)
    (hclear : s.cfg.startClearsFlags = true) (h1 : 1 ≤ len) (h4 : len ≤ 4)
    (hk : k < s.cfg.pollBound) (henv : s.env = List.replicate k .hold ++ .move w r :: rest)
    (hdone : (completedFlags s.cfg (clearFlags s.status)
      (failureCode (writeLatched slave len data) w r)).done = true) :
    poll (writeStarted slave len data s) = errorCheck
      (writeCompleted slave len data (k + 1) rest
        (completedFlags s.cfg (clearFlags s.status)
          (failureCode (writeLatched slave len data) w r)) s) := by
  have hstatus := writeStarted_clear slave len data hclear
  rw [poll_completes (s := writeStarted slave len data s) (c := writeLatched slave len data) rfl
    (by rw [hstatus]; rfl) henv hk (by rw [hstatus]; exact hdone),
    ← complete_writeStarted slave data k (k + 1) w r rest he hclear h1 h4]
  simp only [writeStarted, Nat.add_assoc]

theorem errorCheck_writeCompleted {s : State} (slave : Word) (len : Int) (data : Word) (n : Nat)
    (rest : List EnvMove) (flags : Status) (he : s.enabledIdle = true) :
    errorCheck (writeCompleted slave len data n rest flags s) =
      if flags.err = true then
        .ok false
          { writeCompleted slave len data n rest flags s with
            errCode := flags.code, errClass := decodeClass flags.code, seq := .error,
            exitCode := .error, halt := true, stepIdx := 10 + n + 2, tick := s.tick + (10 + n) + 2 }
      else .ok true { writeCompleted slave len data n rest flags s with
        stepIdx := 10 + n + 1, tick := s.tick + (10 + n) + 1 } :=
  errorCheck_idle (enabledIdle_iff.1 he).1

/-- Settles O32: the poll ends at the completion and the error check finds no error. -/
theorem writeThatSucceeds : Obligations.WriteThatSucceeds := by
  intro s slave data len k r rest ht he hclear h1 h4 hk henv
  rw [twiWrite_start ht he h1 h4, poll_writeStarted_done slave data he hclear h1 h4 hk henv rfl,
    errorCheck_writeCompleted slave len data _ rest _ he]
  rfl

/-- Settles O33: the error check finds the code the bus reported. -/
theorem writeThatFails : Obligations.WriteThatFails := by
  intro s slave data len k code r rest ht he hclear hsets h1 h4 hk henv
  have hflags : completedFlags s.cfg (clearFlags s.status)
      (failureCode (writeLatched slave len data) (.err code) r) =
        { code := code, done := true, err := true } := by
    show Status.mk code (s.cfg.errorSetsDone || false) true = _
    rw [hsets, Bool.true_or]
  rw [twiWrite_start ht he h1 h4,
    poll_writeStarted_done slave data he hclear h1 h4 hk henv (by rw [hflags]), hflags,
    errorCheck_writeCompleted slave len data _ rest _ he]
  rfl

/-- Settles O34: all polls find the engine holding. -/
theorem writeThatTimesOut : Obligations.WriteThatTimesOut := by
  intro s slave data len rest ht he hclear _ h1 h4 henv
  have hstatus := writeStarted_clear slave len data hclear
  rw [twiWrite_start ht he h1 h4, poll_timesOut (s := writeStarted slave len data s)
    (c := writeLatched slave len data) rfl (by rw [hstatus]; rfl) henv]
  simp only [raiseFatal, bind_ok, Bool.false_eq_true, if_false, finish, writeStarted,
    acceptedFlags_clear _ hclear, writeWord_triggered, Nat.add_assoc]
  rfl

/-- A transaction that completes with the done flag clear is waited for up to the bound (R118). -/
theorem poll_completes_undone {c : Latched} {w : WriteAnswer} {r : ReadAnswer} {k : Nat}
    {rest : List EnvMove} {s : State} (hc : s.engine = .pending c) (hd : s.status.done = false)
    (he : s.env = List.replicate k .hold ++ .move w r :: rest) (hk : k < s.cfg.pollBound)
    (hundone : (completedFlags s.cfg s.status (failureCode c w r)).done = false) :
    poll s = .ok false (raiseFatal .timeout
      { complete c w r { s with env := rest, tick := s.tick + k } with
        tick := s.tick + s.cfg.pollBound, stepIdx := s.stepIdx + s.cfg.pollBound,
        polls := s.cfg.pollBound }) := by
  obtain ⟨m, hm⟩ : ∃ m, s.cfg.pollBound = k + (m + 1) := ⟨s.cfg.pollBound - k - 1, by omega⟩
  rw [poll, hm, pollLoop_hold (s := { s with polls := 0 }) (c := c) (m + 1) _ k hc hd he,
    pollLoop_succ, engineTurn_move (c := c) (w := w) (r := r) (rest := rest) (by exact hc) rfl,
    if_neg (by rw [complete_status, hundone]; decide), pollLoop_idle m _ rfl (by exact hundone),
    bind_ok]
  simp only [Nat.zero_add, Nat.add_assoc, Nat.add_comm 1 m]
  rfl

/-- A transaction of TWI.WRITE that completes with the done flag clear. -/
theorem poll_writeStarted_undone {s : State} (slave data : Word) {len : Int} {k : Nat}
    {w : WriteAnswer} {r : ReadAnswer} {rest : List EnvMove} (he : s.enabledIdle = true)
    (hclear : s.cfg.startClearsFlags = true) (h1 : 1 ≤ len) (h4 : len ≤ 4)
    (hk : k < s.cfg.pollBound) (henv : s.env = List.replicate k .hold ++ .move w r :: rest)
    (hundone : (completedFlags s.cfg (clearFlags s.status)
      (failureCode (writeLatched slave len data) w r)).done = false) :
    poll (writeStarted slave len data s) = .ok false (raiseFatal .timeout
      (writeCompleted slave len data s.cfg.pollBound rest
        (completedFlags s.cfg (clearFlags s.status)
          (failureCode (writeLatched slave len data) w r)) s)) := by
  have hstatus := writeStarted_clear slave len data hclear
  rw [poll_completes_undone (s := writeStarted slave len data s)
    (c := writeLatched slave len data) rfl (by rw [hstatus]; rfl) henv hk
    (by rw [hstatus]; exact hundone),
    ← complete_writeStarted slave data k s.cfg.pollBound w r rest he hclear h1 h4]
  simp only [writeStarted, Nat.add_assoc]

/-- Settles O43: the flag never comes, so the poll ends at the bound. -/
theorem errorWithoutDoneTimesOut : Obligations.ErrorWithoutDoneTimesOut := by
  intro s slave data len k code r rest ht he hclear hsets h1 h4 hk henv
  have hflags : completedFlags s.cfg (clearFlags s.status)
      (failureCode (writeLatched slave len data) (.err code) r) =
        { code := code, done := false, err := true } := by
    show Status.mk code (s.cfg.errorSetsDone || false) true = _
    rw [hsets, Bool.false_or]
  rw [twiWrite_start ht he h1 h4,
    poll_writeStarted_undone slave data he hclear h1 h4 hk henv (by rw [hflags]), hflags]
  rfl

end Sys2Proof.Machine
end

section
/-! PROOFS. TWI.READ by the outcome of its transaction, and the round trip (spec/43_sequencer.md
R143 to R145, spec/20_memory.md R47, R49). -/

namespace Sys2Proof.Machine

/-- The command TWI.READ latches; `data` is DOUT as it stands, of which a read makes no use. -/
def readLatched (slave : Word) (len : Int) (data : Word) : Latched :=
  { kind := .read, n := len.toNat, slave := slave, data := data }

/-- TWI.READ's state when its transaction has completed with these flags and this DIN, and `n`
polls are made. -/
def readCompleted (slave : Word) (len : Int) (n : Nat) (rest : List EnvMove) (flags : Status)
    (din : Word) (dinBytes : Nat) (s : State) : State :=
  { s with
    ctrl := readWord s.cfg.readLen s.ctrl len, addr := slave, din := din, dinBytes := dinBytes,
    status := flags, seq := .readPending, stepIdx := 9 + n, polls := n, env := rest,
    tick := s.tick + (9 + n), bus := s.bus ++ [.read slave len.toNat] }

theorem readStarted_clear {s : State} (slave : Word) (len : Int)
    (hclear : s.cfg.startClearsFlags = true) :
    (readStarted slave len s).status = clearFlags s.status :=
  acceptedFlags_clear s.status hclear

/-- A transaction that completes with the done flag set ends the wait there. -/
theorem poll_readStarted_done {s : State} (slave : Word) {len : Int} {k : Nat}
    {w : WriteAnswer} {r : ReadAnswer} {rest : List EnvMove} (he : s.enabledIdle = true)
    (hclear : s.cfg.startClearsFlags = true) (h1 : 1 ≤ len) (h4 : len ≤ 4)
    (hk : k < s.cfg.pollBound) (henv : s.env = List.replicate k .hold ++ .move w r :: rest)
    (hdone : (completedFlags s.cfg (clearFlags s.status)
      (failureCode (readLatched slave len s.dout) w r)).done = true) :
    poll (readStarted slave len s) = errorCheck
      (readCompleted slave len (k + 1) rest
        (completedFlags s.cfg (clearFlags s.status)
          (failureCode (readLatched slave len s.dout) w r))
        (completedDin (readLatched slave len s.dout) r { s with tick := s.tick + (9 + k) })
        (completedDinBytes (readLatched slave len s.dout) r) s) := by
  obtain ⟨hi, hst, -⟩ := enabledIdle_iff.1 he
  have hstatus := readStarted_clear slave len hclear
  have hctrl := clearBitOf_setBitOf (ctrlStart_readWord (p := s.cfg.readLen) h1 h4 hst)
  rw [poll_completes (s := readStarted slave len s) (c := readLatched slave len s.dout) rfl
    (by rw [hstatus]; rfl) henv hk (by rw [hstatus]; exact hdone)]
  simp only [complete, readStarted, readCompleted, acceptedFlags_clear _ hclear, hctrl, hi,
    Nat.add_assoc]
  rfl

theorem errorCheck_readCompleted {s : State} (slave : Word) (len : Int) (n : Nat)
    (rest : List EnvMove) (flags : Status) (din : Word) (dinBytes : Nat)
    (he : s.enabledIdle = true) :
    errorCheck (readCompleted slave len n rest flags din dinBytes s) =
      if flags.err = true then
        .ok false
          { readCompleted slave len n rest flags din dinBytes s with
            errCode := flags.code, errClass := decodeClass flags.code, seq := .error,
            exitCode := .error, halt := true, stepIdx := 9 + n + 2, tick := s.tick + (9 + n) + 2 }
      else .ok true { readCompleted slave len n rest flags din dinBytes s with
        stepIdx := 9 + n + 1, tick := s.tick + (9 + n) + 1 } :=
  errorCheck_idle (enabledIdle_iff.1 he).1

/-- The next state of a TWI.READ whose transaction succeeds at poll `k + 1`, DIN and the value read
written out. -/
theorem twiRead_succeeds {s : State} (slave : Word) {len : Int} {k : Nat} {w : WriteAnswer}
    {b0 b1 b2 b3 : Byte} {rest : List EnvMove} (ht : s.transferReady = true)
    (he : s.enabledIdle = true) (hclear : s.cfg.startClearsFlags = true) (h1 : 1 ≤ len)
    (h4 : len ≤ 4) (hk : k < s.cfg.pollBound)
    (henv : s.env = List.replicate k .hold ++ .move w (.data b0 b1 b2 b3) :: rest) {d v : Word}
    (hd : d = overlay len.toNat (fromLanes b0 b1 b2 b3) (Config.dinFill (s.tick + (9 + k))))
    (hv : v = overlay len.toNat d (Config.dinDraw (s.tick + (9 + (k + 1) + 1)))) :
    exec (.twiRead slave len) s = .next
      { readCompleted slave len (k + 1) rest { code := s.cfg.codeOk, done := true, err := false }
          d len.toNat s with
        seq := .done, value := v, stepIdx := 9 + (k + 1) + 2, result := .word v,
        tick := s.tick + (9 + (k + 1) + 2) } := by
  subst hd hv
  rw [twiRead_start ht he h1 h4, poll_readStarted_done slave he hclear h1 h4 hk henv rfl,
    errorCheck_readCompleted slave len _ rest _ _ _ he]
  simp only [failureCode, completedFlags, readLatched, completedDin, completedDinBytes,
    Bool.false_eq_true, if_false, bind_ok, if_true]
  rw [readReg_din_idle (by exact (enabledIdle_iff.1 he).1)]
  rfl

/-- Settles O35: `twiRead_succeeds`, its two words lane by lane. -/
theorem readThatSucceeds : Obligations.ReadThatSucceeds := by
  intro s slave len k w b0 b1 b2 b3 rest ht he hclear h1 h4 hk henv
  have hn : len.toNat ≤ 4 := by omega
  obtain ⟨d, hd⟩ : ∃ d, d = overlay len.toNat (fromLanes b0 b1 b2 b3)
    (Config.dinFill (s.tick + (9 + k))) := ⟨_, rfl⟩
  obtain ⟨v, hv⟩ : ∃ v, v = overlay len.toNat d (Config.dinDraw (s.tick + (9 + (k + 1) + 1))) :=
    ⟨_, rfl⟩
  refine ⟨d, v, ?_, fun j hj => ?_⟩
  · rw [twiRead_succeeds slave ht he hclear h1 h4 hk henv hd hv, readCompleted, readWord_eq] <;> rfl
  · have hdin : d.extractLsb' (8 * j) 8 = _ := hd ▸ overlay_lane hn _ _ hj
    have hlane : (fromLanes b0 b1 b2 b3).extractLsb' (8 * j) 8 = _ :=
      byteLane_fromLanes b0 b1 b2 b3 hj
    rw [hlane] at hdin
    refine ⟨?_, hdin⟩
    rw [hv, overlay_lane hn _ _ hj, hdin]
    split <;> rfl

/-- Settles O36: the error check finds the code the bus reported. -/
theorem readThatFails : Obligations.ReadThatFails := by
  intro s slave len k code w rest ht he hclear hsets h1 h4 hk henv
  have hflags : completedFlags s.cfg (clearFlags s.status)
      (failureCode (readLatched slave len s.dout) w (.err code)) =
        { code := code, done := true, err := true } := by
    show Status.mk code (s.cfg.errorSetsDone || false) true = _
    rw [hsets, Bool.true_or]
  rw [twiRead_start ht he h1 h4,
    poll_readStarted_done slave he hclear h1 h4 hk henv (by rw [hflags]), hflags,
    errorCheck_readCompleted slave len _ rest _ _ _ he, readCompleted, readWord_eq]
  rfl

/-- CTRL after TWI.READ's trigger, in the masks of R143. -/
theorem readWord_triggered (p : ReadLen) (c : Word) (len : Int) :
    setBitOf (readWord p c len) 6 =
      ((match p with
        | .lsb0 => (c &&& 0xFFFFFFFC#32) ||| BitVec.ofInt 32 (len - 1)
        | .lsb2 => (c &&& 0xFFFFFFF3#32) ||| (BitVec.ofInt 32 (len - 1) <<< 2)) &&&
          0xFFFFFFCF#32) ||| 0x00000040#32 := by
  rw [readWord_eq]
  rfl

/-- Settles O37: all polls find the engine holding. -/
theorem readThatTimesOut : Obligations.ReadThatTimesOut := by
  intro s slave len rest ht he hclear _ h1 h4 henv
  have hstatus := readStarted_clear slave len hclear
  rw [twiRead_start ht he h1 h4, poll_timesOut (s := readStarted slave len s)
    (c := readLatched slave len s.dout) rfl (by rw [hstatus]; rfl) henv]
  simp only [raiseFatal, bind_ok, Bool.false_eq_true, if_false, finish, readStarted,
    acceptedFlags_clear _ hclear, readWord_triggered, Nat.add_assoc]
  rfl

end Sys2Proof.Machine
end

section
/-! PROOFS. TWI.POLL on its own, a stale DONE, and the round trip (spec/43_sequencer.md R144, R145,
spec/70_reset_and_hazards.md R201, spec/20_memory.md R49). -/

namespace Sys2Proof.Machine

/-! ### TWI.POLL (R144, R145) -/

theorem twiPoll_start {s : State} (hs : s.ready = true) :
    exec .twiPoll s = finish ((poll (beginOperation s)).bind fun d t =>
      if d then .ok .done t else .ok .nothing t) := by
  show execTwiPoll s = _
  rw [execTwiPoll, command_ready _ hs]

/-- The wait with nothing pending and the done flag clear. -/
theorem poll_idle_timesOut {s : State} (hi : s.engine = .idle) (hd : s.status.done = false) :
    poll s = .ok false (raiseFatal .timeout
      { s with
        tick := s.tick + s.cfg.pollBound, stepIdx := s.stepIdx + s.cfg.pollBound,
        polls := s.cfg.pollBound }) := by
  rw [poll, pollLoop_idle s.cfg.pollBound { s with polls := 0 } hi hd, bind_ok]
  simp only [Nat.zero_add, Bool.false_eq_true, if_false]

/-- The wait with the done flag set at the first poll, the engine's opportunity past. -/
theorem poll_done_first {s : State} (hb : 0 < s.cfg.pollBound)
    (hd : (engineTurn { s with polls := 0 }).status.done = true) :
    poll s = errorCheck { engineTurn { s with polls := 0 } with
      tick := s.tick + 1, stepIdx := s.stepIdx + 1, polls := 1 } := by
  obtain ⟨m, hm⟩ : ∃ m, s.cfg.pollBound = m + 1 := ⟨s.cfg.pollBound - 1, by omega⟩
  rw [poll, hm, pollLoop_succ, if_pos hd, bind_ok, if_pos rfl]

/-- Settles O39: the completion at poll `k + 1`, no completion, and nothing pending. -/
theorem pollWaitsForDoneUpToTheBound : Obligations.PollWaitsForDoneUpToTheBound := by
  intro s hs hd _
  rw [twiPoll_start hs]
  refine ⟨fun c k w r rest hc hk hf he => ?_, fun c rest hc he => ?_, fun hi => ?_⟩
  · have hdone : (completedFlags s.cfg s.status (failureCode c w r)).done = true := by
      rw [hf]; rfl
    rw [poll_completes (s := beginOperation s) hc hd he hk hdone, errorCheck_idle rfl,
      if_neg (by rw [complete_status, hf]; exact nofun)]
    simp only [bind_ok, if_true, finish, beginOperation, complete, Nat.zero_add, Nat.add_assoc]
    rfl
  · rw [poll_timesOut (s := beginOperation s) hc hd he]
    simp only [bind_ok, Bool.false_eq_true, if_false, finish, raiseFatal, beginOperation,
      Nat.zero_add]
  · rw [poll_idle_timesOut (s := beginOperation s) hi hd]
    simp only [bind_ok, Bool.false_eq_true, if_false, finish, raiseFatal, beginOperation,
      Nat.zero_add]

/-- Settles O40: one read of DONE, then the error check while IDLE. -/
theorem errorFlagEndsTheRun : Obligations.ErrorFlagEndsTheRun := by
  intro s hs hi hd hb
  have hturn : engineTurn { beginOperation s with polls := 0 } =
      { beginOperation s with polls := 0 } := engineTurn_idle hi
  rw [twiPoll_start hs, poll_done_first (s := beginOperation s) hb (by rw [hturn]; exact hd), hturn,
    errorCheck_idle (by exact hi)]
  refine ⟨fun he => ?_, fun he => ?_⟩
  · rw [if_neg (by exact he ▸ nofun)]
    rfl
  · rw [if_pos (by exact he)]
    rfl

/-! ### A stale DONE (R115, R201) -/

/-- The error check while the engine holds and the error flag is clear. -/
theorem errorCheck_hold {s : State} {c : Latched} {rest : List EnvMove}
    (hc : s.engine = .pending c) (henv : s.env = .hold :: rest) (he : s.status.err = false) :
    errorCheck s = .ok true
      { s with env := rest, stepIdx := s.stepIdx + 1, tick := s.tick + 1 } := by
  rw [errorCheck_eq, engineTurn_hold hc henv, if_neg (by exact he ▸ nofun)]
  rfl

/-- A read of DIN while a read is pending and the engine holds. -/
theorem readReg_din_hold {s : State} {c : Latched} {rest : List EnvMove}
    (hc : s.engine = .pending c) (hk : c.kind = .read) (henv : s.env = .hold :: rest) :
    readReg .din s = .ok (Config.dinDraw s.tick) { s with env := rest, tick := s.tick + 1 } := by
  rw [readReg, engineTurn_hold hc henv, readValue,
    dinValue_draw (s := { s with env := rest }) (.inl ⟨c, hc, hk⟩)]
  rfl

/-- Settles O44: the first poll reads the stale flag, the error check no error, and DIN is a draw.
-/
theorem staleDoneEndsThePollAtOnce : Obligations.StaleDoneEndsThePollAtOnce := by
  intro s slave len rest ht he hkeep hd herr hb h1 h4 henv
  have hstatus : (readStarted slave len s).status = s.status := acceptedFlags_keep _ hkeep
  have hturn : engineTurn { readStarted slave len s with polls := 0 } =
      { readStarted slave len s with polls := 0, env := .hold :: .hold :: rest } :=
    engineTurn_hold (c := readLatched slave len s.dout) rfl henv
  rw [twiRead_start ht he h1 h4,
    poll_done_first (s := readStarted slave len s) hb (by rw [hturn]; exact hstatus ▸ hd), hturn,
    errorCheck_hold (c := readLatched slave len s.dout) rfl rfl (by exact hstatus ▸ herr), bind_ok,
    if_pos rfl, readReg_din_hold (c := readLatched slave len s.dout) rfl rfl rfl]
  simp only [readStarted, acceptedFlags_keep _ hkeep, readWord_triggered]
  rfl

/-! ### The round trip (R49) -/

/-- After a TWI.WRITE that succeeds another transfer may begin. -/
theorem twiWrite_then_ready {s : State} (slave data : Word) {len : Int} {k : Nat} {r : ReadAnswer}
    {rest : List EnvMove} (ht : s.transferReady = true) (he : s.enabledIdle = true)
    (hclear : s.cfg.startClearsFlags = true) (h1 : 1 ≤ len) (h4 : len ≤ 4)
    (hk : k < s.cfg.pollBound) (henv : s.env = List.replicate k .hold ++ .move .ack r :: rest) :
    ∃ t, exec (.twiWrite slave len data) s = .next t ∧ t.transferReady = true ∧
      t.enabledIdle = true ∧ t.cfg = s.cfg ∧ t.env = rest ∧
      t.bus = s.bus ++ [.write slave (busBytes data len.toNat)] := by
  obtain ⟨hi, hst, hen, hd⟩ := enabledIdle_iff.1 he
  refine ⟨_, writeThatSucceeds s slave data len k r rest ht he hclear h1 h4 hk henv, rfl,
    enabledIdle_iff.2 ⟨hi, ctrlStart_writeWord h1 h4 hst, ?_, ?_⟩, rfl, rfl, rfl⟩
  · exact (writeWord_bit s.ctrl h1 h4 (j := 31) (by decide)).trans hen
  · exact (writeWord_bit s.ctrl h1 h4 (j := 24) (by decide)).trans hd

/-- Words that agree in a lane agree in its bits. -/
theorem getLsbD_eq_of_byteLane {a b : Word} {j : Nat}
    (h : byteLane a (j / 8) = byteLane b (j / 8)) : a.getLsbD j = b.getLsbD j := by
  have hbit := congrArg (fun v => v.getLsbD (j % 8)) h
  simp only [byteLane_bit, decide_eq_true (Nat.mod_lt j (by decide : 8 > 0)), Bool.true_and,
    Nat.div_add_mod] at hbit
  exact hbit

/-- Bytes received as sent lie in the lanes they were sent from. -/
theorem byteLane_of_sent {d : Word} {b0 b1 b2 b3 : Byte} {n k : Nat} (hn : n ≤ 4)
    (h : [b0, b1, b2, b3].take n = busBytes d n) (hk : k < n) :
    byteLane (fromLanes b0 b1 b2 b3) k = byteLane d k := by
  have hget := congrArg (fun l => l[k]?) h
  simp only [busBytes_getElem? d hk, List.getElem?_take_of_lt hk] at hget
  rw [byteLane_fromLanes b0 b1 b2 b3 (by omega), List.getD_eq_getElem?_getD, hget]
  rfl

/-- Settles O42: the read's lanes are the bytes received, which are the bytes sent. -/
theorem writeThenReadRoundTrips : Obligations.WriteThenReadRoundTrips := by
  intro s a d len k m w r b0 b1 b2 b3 rest ht he hclear hk hm h1 h4 hbytes henv
  have hn : len.toNat ≤ 4 := by omega
  obtain ⟨t, hwrite, tt, te, tcfg, tenv, tbus⟩ :=
    twiWrite_then_ready a d ht he hclear h1 h4 hk henv
  refine ⟨t, _, hwrite, twiRead_succeeds a tt te (tcfg ▸ hclear) h1 h4 (tcfg ▸ hm) tenv rfl rfl,
    rfl, ?_, rfl, rfl, fun j hj => ?_⟩
  · exact (congrArg (· ++ _) tbus).trans (List.append_assoc _ _ _)
  · have hbit := getLsbD_eq_of_byteLane (j := j) (byteLane_of_sent hn hbytes (by omega))
    exact ⟨(overlay_low hn _ _ hj).trans hbit,
      (overlay_low hn _ _ hj).trans ((overlay_low hn _ _ hj).trans hbit)⟩

end Sys2Proof.Machine
end
